-- ==== Sys2Proof/Word.lean ====
section
/-! DEFINITION. The two word types of the block: a byte (BUF entries, tables, lanes, immediates) and a 32-bit word
(registers, command words, bus data). Bit 0 is the least significant bit (R11). -/

namespace Sys2Proof

/-- An 8-bit value: a BUF entry (R40), a table entry (R8), an accumulator lane (R30), an immediate (R82). -/
abbrev Byte := BitVec 8

/-- A 32-bit value: a register as the host sees it (R39), a command word (R80), the LCG state (R6). -/
abbrev Word := BitVec 32

end Sys2Proof
end

