-- ==== Sys2Proof/Config.lean ====
section
/-! DEFINITION. What the spec leaves to the implementation or the platform: the constant tables and the index mode
(R8, R10), the base address (R9), and the buffer size the spec fixes (R9). -/

namespace Sys2Proof

/-- `IDX_MODE` (R10): whether the checksum indices wrap at 256. -/
inductive IdxMode where
  | wrap8
  | unbounded
  deriving DecidableEq, Repr, Inhabited

/-- The open parameters of the block (R8, R10). Every operation that depends on them takes them as an argument. -/
structure Params where
  /-- The source's `table0`, 7 bytes. -/
  t0 : Vector Byte 7
  /-- The source's `table1`, 9 bytes. -/
  t1 : Vector Byte 9
  /-- The source's cipher `fixed_table`, 8 bytes. -/
  kt : Vector Byte 8
  /-- `IDX_MODE`. -/
  idxMode : IdxMode
  deriving DecidableEq, Repr, Inhabited

/-- The tables and index mode of this block: constants (R41, R46) whose values the spec leaves OPEN (R8, R10, D27,
D28; log 1, log 2). Nothing in Lean can evaluate them, so every proof about the machine holds for all of them. -/
opaque Config.params : Params

/-- `BLOCK_BASE`, the host address of the aperture: OPEN, a platform parameter (R9, D29; log 8). -/
opaque Config.blockBase : Nat

/-- `BUF_BYTES` = 2^17 = 131072 (R9). -/
abbrev bufBytes : Nat := 131072

/-- The size of the aperture in bytes, 0x40000 (R50). -/
abbrev apertureBytes : Nat := 0x40000

end Sys2Proof
end

