-- ==== Sys2Proof/Syntax.lean ====
section
/-! DEFINITION. The commands of the opcode map (R83), one constructor a row of spec/opcode_table.json. Operands are
the byte immediates of formats B and X (R81, R82); region operands come from SRC, DST and LEN, not from the word. -/

namespace Sys2Proof

/-- A command (R83). Every value of every operand is legal (R86, R105). -/
inductive Instr where
  /-- OP 0x0, format N (R160). -/
  | nop
  /-- OP 0x1, format N (R100). -/
  | sinit
  /-- OP 0x2, format X (R103): `t0` is IMML, `t1` is IMMH. -/
  | sinitx (t0 t1 : Byte)
  /-- OP 0x3, format N (R106). -/
  | sfeed
  /-- OP 0x4, format B (R109): `d` is the data byte. -/
  | sbyte (d : Byte)
  /-- OP 0x5, format N (R112). -/
  | sum32
  /-- OP 0x6, format B (R130): `k` is the key byte. -/
  | cseed (k : Byte)
  /-- OP 0x7, format N (R133). -/
  | cxor
  /-- OP 0x8, format B (R136): `d` is the data byte. -/
  | cbyte (d : Byte)
  /-- OP 0x9, format B (R139): `k` is the key byte. -/
  | capply (k : Byte)
  /-- OP 0xA, format N (R163). -/
  | clr
  deriving DecidableEq, Repr

end Sys2Proof
end

