-- ==== Sys2Proof/Machine/Bus.lean ====
section
/-! DEFINITION. What the outside world can do to the block: the register names of the register map (R39), the
accesses of the host and the platform's reset (R20, R230), and the lines and assertions of the host assembly (R87 to R89). -/

namespace Sys2Proof.Machine

/-- The ten registers of the register window (R39). -/
inductive Reg where
  | cmd | status | src | dst | len | lcg | kpos | sidx | sum | out
  deriving DecidableEq, Repr

/-- One input of the block. An access names its width in bytes and its offset from BLOCK_BASE (R50); a write carries a
32-bit number of which a narrower access uses the low bits (log 9). `reset` is the platform's reset input, taken
between host accesses (R230, R232; log 5). -/
inductive Event where
  | read (width : Nat) (offset : BitVec 18)
  | write (width : Nat) (offset : BitVec 18) (data : Word)
  | reset
  deriving DecidableEq, Repr

/-- A line of the host assembly (R87) or a pseudo-instruction (R88). `width` is 1, 2 or 4: `stBuf 2 a v` is
`st16 BUF+a, v`. Numbers are as written in the source line; WellFormed.lean says which fit. -/
inductive HostLine where
  | stReg (r : Reg) (v : Nat)
  | ldReg (r : Reg)
  | stBuf (width a v : Nat)
  | ldBuf (width a : Nat)
  | command (i : Instr)
  | region (s d n : Nat)
  | applyKey (s d n : Nat) (k : Byte)
  | checksum (s n : Nat)
  | clrerr
  deriving DecidableEq, Repr

/-- An assertion of the host assembly (R89): `assert REG = v` or `assert BUF[a .. b] = bytes`. It is no access, and the
block never sees it. -/
inductive Assertion where
  | reg (r : Reg) (v : Word)
  | buf (a b : Nat) (bytes : List Byte)
  deriving DecidableEq, Repr

end Sys2Proof.Machine
end

