-- ==== Sys2Proof/WellFormed.lean ====
section
/-! DEFINITION. Well-formedness of syntax. A command has no ill-formed term: its operand types hold exactly the legal
values (R82, R86, R105). A line of the host assembly (R87, R88) is well formed when each number fits its field. -/

namespace Sys2Proof

/-- Every command term is legal: an 8-bit immediate takes all 256 values (R86, R105). -/
def Instr.wellFormed : Instr → Bool
  | .nop => true
  | .sinit => true
  | .sinitx _ _ => true
  | .sfeed => true
  | .sbyte _ => true
  | .sum32 => true
  | .cseed _ => true
  | .cxor => true
  | .cbyte _ => true
  | .capply _ => true
  | .clr => true

namespace Machine

/-- The number fits the 32-bit immediate of `st32` (R87). -/
def fits32 (v : Nat) : Bool := decide (v < 2 ^ 32)

/-- A buffer line's width is one of the three of R87, and `BUF+a` lies in the buffer window (R51). -/
def bufOperand (width a : Nat) : Bool :=
  (width == 1 || width == 2 || width == 4) && decide (a < bufBytes)

/-- The checks on a host assembly line (R87, R88): immediates fit, buffer operands name a byte of BUF. Alignment is no
check of syntax: a misaligned line is a legal line whose access the bus refuses (R52). -/
def HostLine.wellFormed : HostLine → Bool
  | .stReg _ v => fits32 v
  | .ldReg _ => true
  | .stBuf width a v => bufOperand width a && decide (v < 2 ^ (8 * width))
  | .ldBuf width a => bufOperand width a
  | .command i => i.wellFormed
  | .region s d n => fits32 s && fits32 d && fits32 n
  | .applyKey s d n _ => fits32 s && fits32 d && fits32 n
  | .checksum s n => fits32 s && fits32 n
  | .clrerr => true

end Machine

end Sys2Proof
end

