-- ==== Sys2Proof/Decode.lean ====
section
/-! DEFINITION. The command word (R80 to R86): the decoder, total on all 2^32 words, and the encoder, both written from
the opcode map of R83. -/

namespace Sys2Proof

/-- Why a word is Illegal (R84, R85). Each makes the CMD write raise ILLEGAL (R201). -/
inductive Illegal where
  /-- OP is 0xB to 0xF. -/
  | reservedOp
  /-- A format N word with a non-zero bit in [27:0]. -/
  | lowBitsN
  /-- A format B word with a non-zero bit in [27:8]. -/
  | lowBitsB
  /-- A format X word with a non-zero bit in [27:16]. -/
  | lowBitsX
  deriving DecidableEq, Repr

/-- Field OP = w[31:28] (R81). -/
def opField (w : Word) : BitVec 4 := w.extractLsb' 28 4

/-- IMM8 = IMML = w[7:0] (R82). -/
def immLow (w : Word) : Byte := w.extractLsb' 0 8

/-- IMMH = w[15:8] (R82). -/
def immHigh (w : Word) : Byte := w.extractLsb' 8 8

/-- Format N (R81): w[27:0] must be 0. -/
def decodeN (w : Word) (i : Instr) : Except Illegal Instr :=
  if w.extractLsb' 0 28 = 0 then .ok i else .error .lowBitsN

/-- Format B (R81): w[27:8] must be 0; IMM8 is the operand. -/
def decodeB (w : Word) (mk : Byte → Instr) : Except Illegal Instr :=
  if w.extractLsb' 8 20 = 0 then .ok (mk (immLow w)) else .error .lowBitsB

/-- Format X (R81): w[27:16] must be 0; IMML and IMMH are the operands. -/
def decodeX (w : Word) (mk : Byte → Byte → Instr) : Except Illegal Instr :=
  if w.extractLsb' 16 12 = 0 then .ok (mk (immLow w) (immHigh w)) else .error .lowBitsX

/-- The decoder of R84 over the opcode map of R83. -/
def decode (w : Word) : Except Illegal Instr :=
  if opField w = 0x0 then decodeN w .nop
  else if opField w = 0x1 then decodeN w .sinit
  else if opField w = 0x2 then decodeX w .sinitx
  else if opField w = 0x3 then decodeN w .sfeed
  else if opField w = 0x4 then decodeB w .sbyte
  else if opField w = 0x5 then decodeN w .sum32
  else if opField w = 0x6 then decodeB w .cseed
  else if opField w = 0x7 then decodeN w .cxor
  else if opField w = 0x8 then decodeB w .cbyte
  else if opField w = 0x9 then decodeB w .capply
  else if opField w = 0xA then decodeN w .clr
  else .error .reservedOp

/-- The word of a format N command (R81). -/
def wordN (op : BitVec 4) : Word := op ++ (0 : BitVec 28)

/-- The word of a format B command (R81). -/
def wordB (op : BitVec 4) (imm8 : Byte) : Word := op ++ (0 : BitVec 20) ++ imm8

/-- The word of a format X command (R81). -/
def wordX (op : BitVec 4) (immh imml : Byte) : Word := op ++ (0 : BitVec 12) ++ immh ++ imml

/-- The encoder: the word of a command, from the opcode map (R83). -/
def encode : Instr → Word
  | .nop => wordN 0x0
  | .sinit => wordN 0x1
  | .sinitx t0 t1 => wordX 0x2 t1 t0
  | .sfeed => wordN 0x3
  | .sbyte d => wordB 0x4 d
  | .sum32 => wordN 0x5
  | .cseed k => wordB 0x6 k
  | .cxor => wordN 0x7
  | .cbyte d => wordB 0x8 d
  | .capply k => wordB 0x9 k
  | .clr => wordN 0xA

/-- A row of the opcode map (R83): a word `w` selects it when `w &&& mask = pattern`. -/
structure OpcodeRow where
  mnemonic : String
  pattern : Word
  mask : Word
  deriving DecidableEq, Repr

/-- The word selects the row (R83). -/
def OpcodeRow.selects (r : OpcodeRow) (w : Word) : Bool := w &&& r.mask == r.pattern

/-- The opcode map of R83, row for row. -/
def opcodeMap : List OpcodeRow :=
  [⟨"NOP", 0x00000000, 0xFFFFFFFF⟩, ⟨"SINIT", 0x10000000, 0xFFFFFFFF⟩, ⟨"SINITX", 0x20000000, 0xFFFF0000⟩,
   ⟨"SFEED", 0x30000000, 0xFFFFFFFF⟩, ⟨"SBYTE", 0x40000000, 0xFFFFFF00⟩, ⟨"SUM32", 0x50000000, 0xFFFFFFFF⟩,
   ⟨"CSEED", 0x60000000, 0xFFFFFF00⟩, ⟨"CXOR", 0x70000000, 0xFFFFFFFF⟩, ⟨"CBYTE", 0x80000000, 0xFFFFFF00⟩,
   ⟨"CAPPLY", 0x90000000, 0xFFFFFF00⟩, ⟨"CLR", 0xA0000000, 0xFFFFFFFF⟩]

/-- The mnemonic of a command, as the opcode map spells it (R83). -/
def Instr.mnemonic : Instr → String
  | .nop => "NOP"
  | .sinit => "SINIT"
  | .sinitx _ _ => "SINITX"
  | .sfeed => "SFEED"
  | .sbyte _ => "SBYTE"
  | .sum32 => "SUM32"
  | .cseed _ => "CSEED"
  | .cxor => "CXOR"
  | .cbyte _ => "CBYTE"
  | .capply _ => "CAPPLY"
  | .clr => "CLR"

/-- The decoder's answer for a word numbered as spec/opcode_table.json numbers it: the table's rows are one 32-bit
number each, the command word itself (R80); bits above `nbits` are 0. -/
def decodeTableWord (nbits w : Nat) : Option Instr :=
  match decode (BitVec.ofNat 32 (w % 2 ^ nbits)) with
  | .ok i => some i
  | .error _ => none

end Sys2Proof
end

