-- ==== Sys2Proof/Machine/State.lean ====
section
/-! DEFINITION. The state of the block (10_state.md R20 to R46), the reasons a step can stop, and the reset state (R45).
The model's own fields are `pending` and `readLog` (log 4); everything else is the spec's. -/

namespace Sys2Proof.Machine

/-- Memory is BUF (R40): the written bytes, as address and value, addresses strictly rising. An address that is not
listed carries the unwritten mark of R44 and has no value. -/
abbrev Memory := List Host.Cell

/-- The cipher state, the triple of R23. -/
structure CipherState where
  /-- LCG (R24). -/
  lcg : Word
  /-- KPOS (R25): the keystream bytes consumed since the seed, mod 8. -/
  kpos : BitVec 3
  /-- STATUS.SEEDED (R26). -/
  seeded : Bool
  deriving DecidableEq, Repr

/-- The four accumulator lanes ACC[0..3] (R30). -/
structure Lanes where
  lane0 : Byte
  lane1 : Byte
  lane2 : Byte
  lane3 : Byte
  deriving DecidableEq, Repr

/-- The checksum state (R27 to R31). T0I and T1I are naturals: under WRAP8 they stay below 256 (log 3). -/
structure ChecksumState where
  /-- T0I (R27). -/
  t0i : Nat
  /-- T1I (R28). -/
  t1i : Nat
  /-- SPOS (R29): the checksum bytes since the initialisation, mod 4. -/
  spos : BitVec 2
  /-- ACC[0..3] (R30). -/
  acc : Lanes
  /-- STATUS.SINIT (R31). -/
  sinit : Bool
  deriving DecidableEq, Repr

/-- The error record STATUS.ERRV and STATUS.ERRC (R37, R203). -/
structure ErrorRecord where
  errv : Bool
  errc : BitVec 4
  deriving DecidableEq, Repr

/-- The whole state of the block, and the host's accesses on their way to it. -/
structure State where
  /-- LCG, KPOS and STATUS.SEEDED (R23). -/
  cipher : CipherState
  /-- T0I, T1I, SPOS, ACC and STATUS.SINIT (R27 to R31). -/
  checksum : ChecksumState
  /-- OUT (R33). -/
  out : Byte
  /-- SRC (R34). -/
  src : BitVec 17
  /-- DST (R35). -/
  dst : BitVec 17
  /-- LEN (R36). -/
  len : BitVec 18
  /-- STATUS.ERRV and STATUS.ERRC (R37). -/
  err : ErrorRecord
  /-- BUF and its unwritten marks (R40, R44). -/
  buf : Memory
  /-- Model's own: the accesses the host interface holds back, in issue order (R58, R63; log 4). -/
  pending : List Event
  /-- Model's own: the data the host's reads returned, newest first (log 4). -/
  readLog : List Word
  deriving DecidableEq, Repr

/-- The two model faults of R210. -/
inductive Fault where
  /-- UNINIT_READ: a host read or a command read of the unwritten byte `BUF[addr]` (R44, R62). Raised by every
  operation that reads BUF. Safe: the hardware goes on with an unspecified value. -/
  | uninitRead (addr : Nat)
  /-- BUS_ERROR: a host access that R50, R52 or R54 does not admit (R55, R206). Raised by the bus decoder. Safe: the
  block's state is unchanged and the host could go on. -/
  | busError
  deriving DecidableEq, Repr

/-- The reasons a command has no meaning. -/
inductive Refusal where
  /-- Raised by a dispatch arm whose command has no meaning yet (there is none). Safe: the run stops. -/
  | notModelled (mnemonic : String)
  deriving DecidableEq, Repr

namespace State

/-- The cipher state replaced. -/
def withCipher (s : State) (c : CipherState) : State := { s with cipher := c }

/-- The checksum state replaced. -/
def withChecksum (s : State) (c : ChecksumState) : State := { s with checksum := c }

/-- OUT replaced. -/
def withOut (s : State) (b : Byte) : State := { s with out := b }

/-- SRC replaced. -/
def withSrc (s : State) (a : BitVec 17) : State := { s with src := a }

/-- DST replaced. -/
def withDst (s : State) (a : BitVec 17) : State := { s with dst := a }

/-- LEN replaced. -/
def withLen (s : State) (n : BitVec 18) : State := { s with len := n }

/-- The error record replaced. -/
def withErr (s : State) (e : ErrorRecord) : State := { s with err := e }

/-- BUF replaced. -/
def withBuf (s : State) (m : Memory) : State := { s with buf := m }

/-- The held-back accesses replaced. -/
def withPending (s : State) (es : List Event) : State := { s with pending := es }

/-- The returned read data replaced. -/
def withReadLog (s : State) (ws : List Word) : State := { s with readLog := ws }

end State

/-- The cipher state after reset (R45), and after CLR (R163). -/
def CipherState.cleared : CipherState := { lcg := 0, kpos := 0, seeded := false }

/-- All four lanes 0 (R30). -/
def Lanes.zero : Lanes := { lane0 := 0, lane1 := 0, lane2 := 0, lane3 := 0 }

/-- The checksum state after reset (R45), and after CLR (R163). -/
def ChecksumState.cleared : ChecksumState := { t0i := 0, t1i := 0, spos := 0, acc := Lanes.zero, sinit := false }

/-- No error recorded: ERRV = 0, ERRC = 0 (R37, R200). -/
def ErrorRecord.none : ErrorRecord := { errv := false, errc := 0 }

/-- The state right after reset (R45, R230): every register and flag 0, every BUF byte unwritten. -/
def State.reset : State where
  cipher := CipherState.cleared
  checksum := ChecksumState.cleared
  out := 0
  src := 0
  dst := 0
  len := 0
  err := ErrorRecord.none
  buf := []
  pending := []
  readLog := []

end Sys2Proof.Machine
end

