-- ==== Sys2Proof/Machine/Ops.lean ====
section
/-! DEFINITION. The named operations over memory and registers: reading and writing BUF (R13, R44, R53), the derived
functions of R14, the per-byte steps of the cipher and the checksum, and raising and clearing an error (R202, R203). -/

namespace Sys2Proof.Machine

/-- The answer of a command or of a host access. -/
abbrev Result := Host.Outcome State Fault Refusal

/-- Go on with the next state, or stop as the first part stopped. -/
def andThen (r : Result) (f : State → Result) : Result :=
  match r with
  | .next s => f s
  | .fault e => .fault e
  | .refused e => .refused e

/-! Memory (R13, R40, R44, R51 to R53). -/

/-- The byte at an address; none where the unwritten mark stands (R44). What an unlisted address reads as: no value. -/
def Memory.read : Memory → Nat → Option Byte
  | [], _ => none
  | (b, v) :: m, a => if a = b then some v else Memory.read m a

/-- A byte stored: the mark of that byte is cleared (R44), every other byte stands. -/
def Memory.write : Memory → Nat → Byte → Memory
  | [], a, v => [(a, v)]
  | (b, w) :: m, a, v =>
    if a < b then (a, v) :: (b, w) :: m
    else if a = b then (a, v) :: m
    else (b, w) :: Memory.write m a v

/-- The canonical form: addresses strictly rising, all inside BUF (R40). -/
abbrev Memory.wf (m : Memory) : Prop :=
  m.Pairwise (fun c d => c.1 < d.1) ∧ ∀ c ∈ m, c.1 < bufBytes

/-- One byte read, or UNINIT_READ at its address (R44, R62). -/
def Memory.readByte (m : Memory) (a : Nat) : Except Fault Byte :=
  match m.read a with
  | some b => .ok b
  | none => .error (.uninitRead a)

/-- `n` bytes from `a` up, joined big-endian below the bytes already read (R13, R53); UNINIT_READ at the first
unwritten one (log 7). -/
def Memory.readOnto (m : Memory) (a : Nat) : Nat → Word → Except Fault Word
  | 0, got => .ok got
  | n + 1, got =>
    match m.readByte a with
    | .ok b => Memory.readOnto m (a + 1) n ((got <<< 8) ||| b.setWidth 32)
    | .error f => .error f

/-- `MemRead(a, n)` (R13), zero-extended to 32 bits. -/
def Memory.memRead (m : Memory) (a n : Nat) : Except Fault Word := m.readOnto a n 0

/-- `MemWrite(a, n, v)` (R13): `v[8n-1:8n-8]` at `a`, down to `v[7:0]` at `a+n-1`. -/
def Memory.memWrite (m : Memory) (a : Nat) : Nat → Word → Memory
  | 0, _ => m
  | n + 1, v => Memory.memWrite (m.write a ((v >>> (8 * n)).setWidth 8)) (a + 1) n v

/-- The bytes `BUF[a] .. BUF[a+n-1]` in ascending order (R60), or UNINIT_READ at the first unwritten one (R62). -/
def Memory.readRegion (m : Memory) (a : Nat) : Nat → Except Fault (List Byte)
  | 0 => .ok []
  | n + 1 =>
    match m.readByte a with
    | .error f => .error f
    | .ok b =>
      match Memory.readRegion m (a + 1) n with
      | .error f => .error f
      | .ok bs => .ok (b :: bs)

/-! The derived functions (R14). -/

/-- `seed(k)`, the full product truncated to 32 bits (R14, R146). -/
def lcgSeed (k : Byte) : Word := 54323#32 * k.setWidth 32 + 1#32

/-- `next(s)` (R14, R146). -/
def lcgNext (s : Word) : Word := 54323#32 * s + 1#32

/-- `ksb(s)`, bits 20 to 13 (R14). -/
def keystreamByte (s : Word) : Byte := s.extractLsb' 13 8

/-- `inc(t)` (R14): wraps at 256 under WRAP8 only. -/
def idxInc (mode : IdxMode) (t : Nat) : Nat :=
  match mode with
  | .wrap8 => (t + 1) % 256
  | .unbounded => t + 1

/-- `T0[t mod 7]` (R14, R18). -/
def t0At (p : Params) (t : Nat) : Byte := p.t0[t % 7]'(Nat.mod_lt t (by decide))

/-- `T1[t mod 9]` (R14, R18). -/
def t1At (p : Params) (t : Nat) : Byte := p.t1[t % 9]'(Nat.mod_lt t (by decide))

/-- `KT[i mod 8]` (R15, R18). -/
def ktAt (p : Params) (i : Nat) : Byte := p.kt[i % 8]'(Nat.mod_lt i (by decide))

/-- `mix(t0, t1, b)` (R14): T1 is indexed by t1, T0 by t0. -/
def mix (p : Params) (t0 t1 : Nat) (b : Byte) : Byte := t1At p t1 ^^^ t0At p t0 ^^^ b

/-! The per-byte steps. -/

/-- Lane `i` (R30). -/
def Lanes.get (l : Lanes) (i : BitVec 2) : Byte :=
  if i = 0 then l.lane0 else if i = 1 then l.lane1 else if i = 2 then l.lane2 else l.lane3

/-- Lane `i` replaced (R30). -/
def Lanes.set (l : Lanes) (i : BitVec 2) (b : Byte) : Lanes :=
  if i = 0 then { l with lane0 := b }
  else if i = 1 then { l with lane1 := b }
  else if i = 2 then { l with lane2 := b }
  else { l with lane3 := b }

/-- A byte added to lane `i` mod 256, with no carry into another lane (R30). -/
def Lanes.addTo (l : Lanes) (i : BitVec 2) (b : Byte) : Lanes := l.set i (l.get i + b)

/-- SUM, the lanes big-endian, ACC[0] in bits [31:24] (R32). -/
def Lanes.sum (l : Lanes) : Word := l.lane0 ++ l.lane1 ++ l.lane2 ++ l.lane3

/-- A checksum initialised with `t0` and `t1`: lanes and SPOS 0, SINIT set (R100, R103). -/
def ChecksumState.start (t0 t1 : Nat) : ChecksumState :=
  { t0i := t0, t1i := t1, spos := 0, acc := Lanes.zero, sinit := true }

/-- One iteration of the loop of R106: the increments come before the lookup. -/
def ChecksumState.feed (p : Params) (c : ChecksumState) (b : Byte) : ChecksumState :=
  let t0 := idxInc p.idxMode c.t0i
  let t1 := idxInc p.idxMode c.t1i
  { c with t0i := t0, t1i := t1, acc := c.acc.addTo c.spos (mix p t0 t1 b), spos := c.spos + 1 }

/-- The loop of R106 over bytes in order. -/
def ChecksumState.feedAll (p : Params) (c : ChecksumState) (bs : List Byte) : ChecksumState :=
  bs.foldl (ChecksumState.feed p) c

/-- The keystream seeded with `k` (R130). -/
def CipherState.start (k : Byte) : CipherState := { lcg := lcgSeed k, kpos := 0, seeded := true }

/-- The mask byte of the present position, `KT[KPOS] ^ ksb(LCG)` (R133, R144). -/
def CipherState.mask (p : Params) (c : CipherState) : Byte := ktAt p c.kpos.toNat ^^^ keystreamByte c.lcg

/-- The keystream advanced by one byte (R24, R25). -/
def CipherState.advance (c : CipherState) : CipherState := { c with lcg := lcgNext c.lcg, kpos := c.kpos + 1 }

/-- The loop of R133 over `n` bytes, `src` and `dst` the addresses of the next byte: read, then write, then advance, so
that a later read sees an earlier write (R61). UNINIT_READ at the first unwritten source byte (R62). -/
def cipherRegion (p : Params) : Nat → Nat → Nat → CipherState → Memory → Except Fault (CipherState × Memory)
  | 0, _, _, c, m => .ok (c, m)
  | n + 1, src, dst, c, m =>
    match m.readByte src with
    | .error f => .error f
    | .ok b => cipherRegion p n (src + 1) (dst + 1) c.advance (m.write dst (b ^^^ c.mask p))

/-! Errors (R200 to R203). The block has no trap: raising an error is writing the record, and clearing the record is
the one way back (R207, R208). -/

/-- The error codes (R200). -/
inductive ErrCode where
  | illegal | noseed | nosinit | empty | range
  deriving DecidableEq, Repr

/-- The value of STATUS.ERRC (R200). -/
def ErrCode.code : ErrCode → BitVec 4
  | .illegal => 1
  | .noseed => 2
  | .nosinit => 3
  | .empty => 4
  | .range => 5

/-- The record after an error: the first error is kept (R203). -/
def ErrorRecord.record (r : ErrorRecord) (e : ErrCode) : ErrorRecord :=
  if r.errv then r else { errv := true, errc := e.code }

/-- A command raises an error: nothing changes except the record, and the block goes on (R202, R203, R207). -/
def raiseError (e : ErrCode) (s : State) : Result := .next (s.withErr (s.err.record e))

/-- The error record cleared (R37, R208). -/
def clearError (s : State) : State := s.withErr ErrorRecord.none

end Sys2Proof.Machine
end

