-- ==== Sys2Proof/Machine/Operands.lean ====
section
/-! DEFINITION. The operands of region commands (R60, R82): the addresses and length in SRC, DST and LEN, and the range
checks over them. Byte immediates are the operands of Decode.lean. -/

namespace Sys2Proof.Machine

/-- The first source address (R34). -/
def State.srcAddr (s : State) : Nat := s.src.toNat

/-- The first destination address (R35). -/
def State.dstAddr (s : State) : Nat := s.dst.toNat

/-- The region length (R36). -/
def State.regionLen (s : State) : Nat := s.len.toNat

/-- `SRC + LEN > BUF_BYTES`, the sum exact (R60). -/
def State.srcLeaves (s : State) : Bool := decide (bufBytes < s.srcAddr + s.regionLen)

/-- `DST + LEN > BUF_BYTES`, the sum exact (R60). -/
def State.dstLeaves (s : State) : Bool := decide (bufBytes < s.dstAddr + s.regionLen)

/-- The address of the source's `payload[len/2]` (R100). -/
def State.middleAddr (s : State) : Nat := s.srcAddr + s.regionLen / 2

/-- The bytes of the source region in order (R60, R106). -/
def State.sourceBytes (s : State) : Except Fault (List Byte) := s.buf.readRegion s.srcAddr s.regionLen

/-- The checksum initialised from the source region: T0I = LEN mod 256, T1I = the middle byte (R100). -/
def State.initialChecksum (s : State) : Except Fault ChecksumState :=
  match s.buf.readByte s.middleAddr with
  | .error f => .error f
  | .ok m => .ok (ChecksumState.start (s.regionLen % 256) m.toNat)

end Sys2Proof.Machine
end

