-- ==== Sys2Proof/Machine/Flags.lean ====
section
/-! DEFINITION. STATUS and the other registers as the host sees them (R25, R32, R33, R37 to R39), and what a host write
to a register does. Reserved bits read 0 (I14). -/

namespace Sys2Proof.Machine

/-- STATUS: SEEDED, SINIT, ERRV and ERRC at the bits of R37. -/
def State.statusWord (s : State) : Word :=
  (0 : BitVec 24) ++ s.err.errc ++ BitVec.ofBool s.err.errv ++ (0 : BitVec 1) ++
    BitVec.ofBool s.checksum.sinit ++ BitVec.ofBool s.cipher.seeded

/-- SIDX: T0I mod 256, T1I mod 256 and SPOS (R39). -/
def State.sidxWord (s : State) : Word :=
  (0 : BitVec 14) ++ s.checksum.spos ++ BitVec.ofNat 8 s.checksum.t1i ++ BitVec.ofNat 8 s.checksum.t0i

/-- A host read of a register (R39); CMD reads 0 (R38). -/
def State.readReg (s : State) : Reg → Word
  | .cmd => 0
  | .status => s.statusWord
  | .src => s.src.setWidth 32
  | .dst => s.dst.setWidth 32
  | .len => s.len.setWidth 32
  | .lcg => s.cipher.lcg
  | .kpos => s.cipher.kpos.setWidth 32
  | .sidx => s.sidxWord
  | .sum => s.checksum.acc.sum
  | .out => s.out.setWidth 32

/-- A host write to STATUS: bit 3 = 1 clears the record, nothing else has an effect (R37). -/
def State.writeStatus (s : State) (v : Word) : State := if v.getLsbD 3 then clearError s else s

/-- A host write to a register other than CMD: SRC, DST and LEN take their low bits (R34 to R36), STATUS clears by bit
3 (R37), read-only registers ignore it (R39). A write to CMD performs a command instead (R38, HostBus.lean). -/
def State.writeReg (s : State) (r : Reg) (v : Word) : State :=
  match r with
  | .cmd => s
  | .status => s.writeStatus v
  | .src => s.withSrc (v.setWidth 17)
  | .dst => s.withDst (v.setWidth 17)
  | .len => s.withLen (v.setWidth 18)
  | .lcg => s
  | .kpos => s
  | .sidx => s
  | .sum => s
  | .out => s

end Sys2Proof.Machine
end

