-- ==== Sys2Proof/Machine/Checksum.lean ====
section
/-! DEFINITION. The checksum commands SINIT, SINITX, SFEED, SBYTE, SUM32 (40_checksum.md). The operations take the
tables and the index mode as an argument (R8, R10); the meanings apply them to the block's own. -/

namespace Sys2Proof.Machine

/-- SINIT (R100): EMPTY before RANGE (R205), then the middle byte. -/
def execSinit (s : State) : Result :=
  if s.regionLen = 0 then raiseError .empty s
  else if s.srcLeaves then raiseError .range s
  else
    match s.initialChecksum with
    | .error f => .fault f
    | .ok c => .next (s.withChecksum c)

/-- SINITX (R103). -/
def execSinitx (t0 t1 : Byte) (s : State) : Result :=
  .next (s.withChecksum (ChecksumState.start t0.toNat t1.toNat))

/-- SFEED (R106): NOSINIT before RANGE (R205), then the bytes in order. -/
def sfeedWith (p : Params) (s : State) : Result :=
  if s.checksum.sinit = false then raiseError .nosinit s
  else if s.srcLeaves then raiseError .range s
  else
    match s.sourceBytes with
    | .error f => .fault f
    | .ok bs => .next (s.withChecksum (s.checksum.feedAll p bs))

/-- SFEED on this block's tables. -/
def execSfeed (s : State) : Result := sfeedWith Config.params s

/-- SBYTE (R109). -/
def sbyteWith (p : Params) (d : Byte) (s : State) : Result :=
  if s.checksum.sinit = false then raiseError .nosinit s
  else .next (s.withChecksum (s.checksum.feed p d))

/-- SBYTE on this block's tables. -/
def execSbyte (d : Byte) (s : State) : Result := sbyteWith Config.params d s

/-- SUM32 (R112): the body of SINIT followed by the loop of SFEED. The middle byte is read first (R113). -/
def sum32With (p : Params) (s : State) : Result :=
  if s.regionLen = 0 then raiseError .empty s
  else if s.srcLeaves then raiseError .range s
  else
    match s.initialChecksum with
    | .error f => .fault f
    | .ok c =>
      match s.sourceBytes with
      | .error f => .fault f
      | .ok bs => .next (s.withChecksum (c.feedAll p bs))

/-- SUM32 on this block's tables. -/
def execSum32 (s : State) : Result := sum32With Config.params s

end Sys2Proof.Machine
end

