-- ==== Sys2Proof/Machine/Cipher.lean ====
section
/-! DEFINITION. The cipher commands CSEED, CXOR, CBYTE, CAPPLY (41_cipher.md). The operations take the tables as an
argument (R8); the meanings apply them to the block's own. -/

namespace Sys2Proof.Machine

/-- CSEED (R130). -/
def execCseed (k : Byte) (s : State) : Result := .next (s.withCipher (CipherState.start k))

/-- The region loop of R133, started from cipher state `c`, on SRC, DST and LEN. -/
def runKeystream (p : Params) (c : CipherState) (s : State) : Result :=
  match cipherRegion p s.regionLen s.srcAddr s.dstAddr c s.buf with
  | .error f => .fault f
  | .ok (c', m) => .next ((s.withCipher c').withBuf m)

/-- CXOR (R133): NOSEED before RANGE (R205), then the keystream goes on from where it stands. -/
def cxorWith (p : Params) (s : State) : Result :=
  if s.cipher.seeded = false then raiseError .noseed s
  else if s.srcLeaves || s.dstLeaves then raiseError .range s
  else runKeystream p s.cipher s

/-- CXOR on this block's tables. -/
def execCxor (s : State) : Result := cxorWith Config.params s

/-- CBYTE (R136): the result byte goes to OUT. -/
def cbyteWith (p : Params) (d : Byte) (s : State) : Result :=
  if s.cipher.seeded = false then raiseError .noseed s
  else .next ((s.withOut (d ^^^ s.cipher.mask p)).withCipher s.cipher.advance)

/-- CBYTE on this block's tables. -/
def execCbyte (d : Byte) (s : State) : Result := cbyteWith Config.params d s

/-- CAPPLY (R139): RANGE is raised before seeding (R140), then the keystream starts at `k`. -/
def capplyWith (p : Params) (k : Byte) (s : State) : Result :=
  if s.srcLeaves || s.dstLeaves then raiseError .range s
  else runKeystream p (CipherState.start k) s

/-- CAPPLY on this block's tables. -/
def execCapply (k : Byte) (s : State) : Result := capplyWith Config.params k s

end Sys2Proof.Machine
end

