-- ==== Sys2Proof/Machine/Control.lean ====
section
/-! DEFINITION. The control commands NOP and CLR (42_control.md). -/

namespace Sys2Proof.Machine

/-- NOP (R160): no state change. -/
def execNop (s : State) : Result := .next s

/-- CLR (R163): cipher state, checksum state and OUT to their reset values; SRC, DST, LEN, BUF and the error record
stand. -/
def execClr (s : State) : Result :=
  .next (((s.withCipher CipherState.cleared).withChecksum ChecksumState.cleared).withOut 0)

end Sys2Proof.Machine
end

