-- ==== Sys2Proof/Machine/Dispatch.lean ====
section
/-! DEFINITION. The command's meaning, one arm a row of the opcode map (R83). -/

namespace Sys2Proof.Machine

def exec (i : Instr) (s : State) : Host.Outcome State Fault Refusal :=
  match i with
  | .nop => Sys2Proof.Machine.execNop s
  | .sinit => Sys2Proof.Machine.execSinit s
  | .sinitx t0 t1 => Sys2Proof.Machine.execSinitx t0 t1 s
  | .sfeed => Sys2Proof.Machine.execSfeed s
  | .sbyte d => Sys2Proof.Machine.execSbyte d s
  | .sum32 => Sys2Proof.Machine.execSum32 s
  | .cseed k => Sys2Proof.Machine.execCseed k s
  | .cxor => Sys2Proof.Machine.execCxor s
  | .cbyte d => Sys2Proof.Machine.execCbyte d s
  | .capply k => Sys2Proof.Machine.execCapply k s
  | .clr => Sys2Proof.Machine.execClr s

end Sys2Proof.Machine
end

