-- ==== Sys2Proof/Machine/HostBus.lean ====
section
/-! DEFINITION. The host's side of the block (20_memory.md): the aperture's address map, which accesses are admitted,
what a host read, a host write and the platform's reset do, and running the held-back accesses one at a time. -/

namespace Sys2Proof.Machine

/-- The offset of a register (R39). -/
def Reg.offset : Reg → BitVec 18
  | .cmd => 0x000
  | .status => 0x004
  | .src => 0x008
  | .dst => 0x00C
  | .len => 0x010
  | .lcg => 0x014
  | .kpos => 0x018
  | .sidx => 0x01C
  | .sum => 0x020
  | .out => 0x024

/-- The register at an offset of the aperture (R39); none where no register starts (R50, R54). -/
def regAt (offset : Nat) : Option Reg :=
  match offset with
  | 0x000 => some .cmd
  | 0x004 => some .status
  | 0x008 => some .src
  | 0x00C => some .dst
  | 0x010 => some .len
  | 0x014 => some .lcg
  | 0x018 => some .kpos
  | 0x01C => some .sidx
  | 0x020 => some .sum
  | 0x024 => some .out
  | _ => none

/-- What an admitted access reaches. -/
inductive Target where
  | reg (r : Reg)
  | buf (a : Nat)
  deriving DecidableEq, Repr

/-- The first offset of the buffer window (R50). -/
abbrev bufWindow : Nat := 0x20000

/-- A width and alignment that the buffer window admits (R52). -/
def bufAccessAdmitted (width offset : Nat) : Bool :=
  (width == 1 || width == 2 || width == 4) && offset % width == 0

/-- The address map (R50, R51) and the width and alignment rules (R52, R54); none is BusError (R55). -/
def busTarget (width : Nat) (offset : BitVec 18) : Option Target :=
  if offset.toNat < bufWindow then
    if width = 4 then (regAt offset.toNat).map .reg else none
  else if bufAccessAdmitted width offset.toNat then some (.buf (offset.toNat - bufWindow))
  else none

/-- The offset that a host address reaches when the aperture starts at `base` (R50): none outside the aperture. -/
def apertureOffset (base address : Nat) : Option (BitVec 18) :=
  if base ≤ address ∧ address < base + apertureBytes then some (BitVec.ofNat 18 (address - base)) else none

/-- A read returns its data to the host (R52, R55); nothing else changes (R59). -/
def State.returnData (s : State) (v : Word) : State := s.withReadLog (v :: s.readLog)

/-- A write of `w` to CMD performs the command `w`; an Illegal word raises ILLEGAL (R38, R84). -/
def performWord (w : Word) (s : State) : Result :=
  match decode w with
  | .ok i => exec i s
  | .error _ => raiseError .illegal s

/-- A host read (R39, R52). -/
def hostRead (width : Nat) (offset : BitVec 18) (s : State) : Result :=
  match busTarget width offset with
  | none => .fault .busError
  | some (.reg r) => .next (s.returnData (s.readReg r))
  | some (.buf a) =>
    match s.buf.memRead a width with
    | .error f => .fault f
    | .ok v => .next (s.returnData v)

/-- A host write (R38, R39, R52). -/
def hostWrite (width : Nat) (offset : BitVec 18) (v : Word) (s : State) : Result :=
  match busTarget width offset with
  | none => .fault .busError
  | some (.reg .cmd) => performWord v s
  | some (.reg r) => .next (s.writeReg r v)
  | some (.buf a) => .next (s.withBuf (s.buf.memWrite a width v))

/-- The platform's reset (R230): every register, flag and BUF byte of the block. What the host has still to issue and
what its reads returned are the host's, and stand (log 5). -/
def platformReset (s : State) : State := (State.reset.withPending s.pending).withReadLog s.readLog

/-- One input taken, as one atomic transition (R58). -/
def access (e : Event) (s : State) : Result :=
  match e with
  | .read width offset => hostRead width offset s
  | .write width offset v => hostWrite width offset v s
  | .reset => .next (platformReset s)

/-- The next held-back access is taken, in issue order (R58, R63). With none the block is idle and its state persists
(R225, R231). -/
def takeNext (s : State) : Result :=
  match s.pending with
  | [] => .next s
  | e :: rest => access e (s.withPending rest)

/-- Accesses issued one after another, each completed before the next begins (R63). -/
def accessAll : List Event → State → Result
  | [], s => .next s
  | e :: es, s => andThen (access e s) (accessAll es)

/-- A 32-bit write of a command word to CMD (R38, R87). -/
def cmdWrite (w : Word) : Event := .write 4 Reg.cmd.offset w

/-- A host access at a host address, when the aperture starts at BLOCK_BASE (R50): outside the aperture the block sees
nothing (log 8). -/
def State.issueAt (s : State) (address : Nat) (mk : BitVec 18 → Event) : State :=
  match apertureOffset Config.blockBase address with
  | some o => s.withPending (s.pending ++ [mk o])
  | none => s

end Sys2Proof.Machine
end

