-- ==== Sys2Proof/Machine/Step.lean ====
section
/-! DEFINITION. One step: the next access that the host interface holds back (R58). -/

namespace Sys2Proof.Machine

/-- One step of the block: one host access, or one platform reset, or nothing when none is held back. -/
def step (s : State) : Host.Outcome State Fault Refusal := takeNext s

/-- `s` with a command word on its way to CMD before every other access: the block fetches nothing (R66), so a command
runs because its word is written to CMD (log 4). -/
def State.withFetchWord (s : State) (nbits w : Nat) : State :=
  s.withPending (cmdWrite (BitVec.ofNat 32 (w % 2 ^ nbits)) :: s.pending)

end Sys2Proof.Machine
end

