-- ==== Sys2Proof/Machine/Assembly.lean ====
section
/-! DEFINITION. The host assembly (R87 to R89): the accesses each line stands for, and what an assertion states. -/

namespace Sys2Proof.Machine

/-- The offset of `BUF+a` (R51, R87), for `a` inside BUF. -/
def bufOffset (a : Nat) : BitVec 18 := BitVec.ofNat 18 (bufWindow + a)

/-- `st32 REG, v` (R87). -/
def st32 (r : Reg) (v : Nat) : Event := .write 4 r.offset (BitVec.ofNat 32 v)

/-- `ld32 REG` (R87). -/
def ld32 (r : Reg) : Event := .read 4 r.offset

/-- `<mnemonic> [operands]` (R87): the command's word written to CMD. -/
def commandLine (i : Instr) : Event := cmdWrite (encode i)

/-- `region s, d, n` (R88). -/
def regionLines (s d n : Nat) : List Event := [st32 .src s, st32 .dst d, st32 .len n]

/-- `apply s, d, n, k` (R88). -/
def applyLines (s d n : Nat) (k : Byte) : List Event := regionLines s d n ++ [commandLine (.capply k)]

/-- `checksum s, n` (R88). -/
def checksumLines (s n : Nat) : List Event := [st32 .src s, st32 .len n, commandLine .sum32, ld32 .sum]

/-- `clrerr` (R88). -/
def clrerrLines : List Event := [st32 .status 0x00000008]

/-- The accesses of a line (R87, R88). -/
def HostLine.accesses : HostLine → List Event
  | .stReg r v => [st32 r v]
  | .ldReg r => [ld32 r]
  | .stBuf width a v => [.write width (bufOffset a) (BitVec.ofNat 32 v)]
  | .ldBuf width a => [.read width (bufOffset a)]
  | .command i => [commandLine i]
  | .region s d n => regionLines s d n
  | .applyKey s d n k => applyLines s d n k
  | .checksum s n => checksumLines s n
  | .clrerr => clrerrLines

/-- A line assembled: none where it is not well formed (log 10). -/
def HostLine.assemble (l : HostLine) : Option (List Event) :=
  if l.wellFormed then some l.accesses else none

/-- The assertion holds of the block (R89): the register reads `v`, or the bytes `BUF[a .. b]`, all written, are as
stated. -/
def Assertion.holds (s : State) : Assertion → Bool
  | .reg r v => s.readReg r == v
  | .buf a b bytes => bytes.length == b + 1 - a && s.buf.readRegion a bytes.length == .ok bytes

end Sys2Proof.Machine
end

