-- ==== Sys2Proof/Machine/Reference.lean ====
section
/-! DEFINITION. The source's whole-buffer functions (R15) and the Binary8 wire layout (R170, R171), as pure functions of
byte sequences. The machine does not call them: claims say that the commands compute them. -/

namespace Sys2Proof.Machine

/-- The loop of `apply` (R15) from keystream state `s` and index `i`. -/
def applyFrom (p : Params) : Word → Nat → List Byte → List Byte
  | _, _, [] => []
  | s, i, b :: d => (b ^^^ ktAt p i ^^^ keystreamByte s) :: applyFrom p (lcgNext s) (i + 1) d

/-- `apply(d, k)` (R15). -/
def applyKey (p : Params) (d : List Byte) (k : Byte) : List Byte := applyFrom p (lcgSeed k) 0 d

/-- The loop of `checksum32` (R15) from index `i`, indices `t0`, `t1` and accumulator `acc`. -/
def checksumFrom (p : Params) : Nat → Nat → Nat → Lanes → List Byte → Lanes
  | _, _, _, acc, [] => acc
  | i, t0, t1, acc, b :: bs =>
    checksumFrom p (i + 1) (idxInc p.idxMode t0) (idxInc p.idxMode t1)
      (acc.addTo (BitVec.ofNat 2 i) (mix p (idxInc p.idxMode t0) (idxInc p.idxMode t1) b)) bs

/-- `checksum32(p)` (R15); none is InvalidInput, the empty payload. -/
def checksum32 (p : Params) (bs : List Byte) : Option Word :=
  match bs[bs.length / 2]? with
  | none => none
  | some m => some (checksumFrom p 0 (bs.length % 256) m.toNat Lanes.zero bs).sum

/-- `server_type`: three raw bytes (R171). -/
structure Tag where
  c0 : Byte
  c1 : Byte
  c2 : Byte
  deriving DecidableEq, Repr

/-- The header fields (R171). -/
structure Header where
  serverType : Tag
  entryCount : BitVec 16
  bodySize : BitVec 16
  checksum : Word
  deriving DecidableEq, Repr

/-- A 16-bit number as bytes, big-endian (R170). -/
def be16 (v : BitVec 16) : List Byte := [v.extractLsb' 8 8, v.extractLsb' 0 8]

/-- A 32-bit number as bytes, big-endian (R170). -/
def be32 (v : Word) : List Byte := [v.extractLsb' 24 8, v.extractLsb' 16 8, v.extractLsb' 8 8, v.extractLsb' 0 8]

/-- `header_plain`, 11 bytes (R170, R171). -/
def Header.plain (h : Header) : List Byte :=
  [h.serverType.c0, h.serverType.c1, h.serverType.c2] ++ be16 h.entryCount ++ be16 h.bodySize ++ be32 h.checksum

/-- The header fields of 11 plain bytes (R171). -/
def Header.ofBytes (bs : List Byte) : Header where
  serverType := { c0 := bs.getD 0 0, c1 := bs.getD 1 0, c2 := bs.getD 2 0 }
  entryCount := bs.getD 3 0 ++ bs.getD 4 0
  bodySize := bs.getD 5 0 ++ bs.getD 6 0
  checksum := bs.getD 7 0 ++ bs.getD 8 0 ++ bs.getD 9 0 ++ bs.getD 10 0

/-- `wire_bytes` (R170): the key byte in clear, then header and payload as one keystream run. -/
def wireBytes (p : Params) (k : Byte) (h : Header) (payload : List Byte) : List Byte :=
  k :: applyKey p (h.plain ++ payload) k

end Sys2Proof.Machine
end

