-- ==== Sys2Proof/Machine/Framing.lean ====
section
/-! DEFINITION. The Binary8 framing procedures (R174 to R177): host programs that drive the block access by access and
decide by what their reads return. -/

namespace Sys2Proof.Machine

/-- What a host program leaves: its own answer and the block's state, or the model fault that stopped it. -/
abbrev HostRun (α : Type) := Host.Outcome (α × State) Fault Refusal

/-- A host program followed by the next one. -/
def hostBind {α β : Type} (r : HostRun α) (f : α → State → HostRun β) : HostRun β :=
  match r with
  | .next (a, s) => f a s
  | .fault e => .fault e
  | .refused e => .refused e

/-- The accesses issued in order; the answer is the data the last read returned (0 where none was read yet). -/
def issue (es : List Event) (s : State) : HostRun Word :=
  match accessAll es s with
  | .next s' => .next (s'.readLog.headD 0, s')
  | .fault e => .fault e
  | .refused e => .refused e

/-- Byte stores at `BUF[a ..]` (R52, R174). -/
def storeBytes : Nat → List Byte → List Event
  | _, [] => []
  | a, b :: bs => .write 1 (bufOffset a) (b.setWidth 32) :: storeBytes (a + 1) bs

/-- `n` byte loads from `BUF[a ..]`, in ascending order. -/
def loadBytes : Nat → Nat → State → HostRun (List Byte)
  | _, 0, s => .next ([], s)
  | a, n + 1, s =>
    hostBind (issue [.read 1 (bufOffset a)] s) fun w s' =>
      hostBind (loadBytes (a + 1) n s') fun bs s'' => .next (w.setWidth 8 :: bs, s'')

/-- What `write_part` reports to its caller (R175). -/
inductive EncodeAnswer where
  /-- The wire unit stands at the base. -/
  | encoded
  /-- InvariantViolation: an empty payload, or one over 65535 bytes (R175, C3). -/
  | invariantViolation
  /-- The base is outside the bound of R174; nothing was done (log 11). -/
  | noRoom
  deriving DecidableEq, Repr

/-- The header `write_part` builds (R174 step 3). -/
def encodeHeader (t : Tag) (n : BitVec 16) (payload : List Byte) (c : Word) : Header :=
  { serverType := t, entryCount := n, bodySize := BitVec.ofNat 16 payload.length, checksum := c }

/-- `write_part(k, t, n, p)` at base `B` (R174, R175). -/
def writePart (k : Byte) (t : Tag) (n : BitVec 16) (payload : List Byte) (base : Nat) (s : State) :
    HostRun EncodeAnswer :=
  if 65535 < payload.length then .next (.invariantViolation, s)
  else if bufBytes < base + 12 + payload.length then .next (.noRoom, s)
  else
    hostBind (issue (storeBytes (base + 12) payload ++ checksumLines (base + 12) payload.length) s) fun c s1 =>
      if payload.isEmpty then .next (.invariantViolation, s1)
      else
        hostBind
          (issue (storeBytes (base + 1) (encodeHeader t n payload c).plain ++ storeBytes base [k] ++
            applyLines (base + 1) (base + 1) (11 + payload.length) k) s1)
          fun _ s2 => .next (.encoded, s2)

/-- What `read_part` reports to its caller (R177). -/
inductive DecodeAnswer where
  /-- Truncated: the wire is shorter than it declares. -/
  | truncated
  /-- CorruptData: the checksums differ, or the body is empty; what was decoded is handed on, since the policy is the
  caller's (I6). -/
  | corruptData (k : Byte) (h : Header) (payload : List Byte)
  /-- The unit, its checksum matching. -/
  | part (k : Byte) (h : Header) (payload : List Byte)
  /-- The wire or the scratch area leaves BUF, or they overlap (R176 step 3); nothing was done (log 11). -/
  | noRoom
  deriving DecidableEq, Repr

/-- The scratch area of R176 step 3 does not fit beside the wire bytes, or either leaves BUF. -/
def badAreas (base size scratch : Nat) : Bool :=
  decide (bufBytes < base + size) || decide (bufBytes < scratch + 11) ||
    (decide (base < scratch + 11) && decide (scratch < base + size))

/-- R176 from step 5: header and payload deciphered as one run, read, and the checksum compared. -/
def readBody (k : Byte) (base body : Nat) (s : State) : HostRun DecodeAnswer :=
  hostBind (issue (applyLines (base + 1) (base + 1) (11 + body) k) s) fun _ s1 =>
    hostBind (loadBytes (base + 1) 11 s1) fun hb s2 =>
      hostBind (loadBytes (base + 12) body s2) fun payload s3 =>
        if body = 0 then .next (.corruptData k (Header.ofBytes hb) payload, s3)
        else
          hostBind (issue (checksumLines (base + 12) body) s3) fun c s4 =>
            if c = (Header.ofBytes hb).checksum then .next (.part k (Header.ofBytes hb) payload, s4)
            else .next (.corruptData k (Header.ofBytes hb) payload, s4)

/-- `read_part` of the `size` wire bytes at `BUF[base ..]` with scratch area `scratch` (R176, R177). -/
def readPart (base size scratch : Nat) (s : State) : HostRun DecodeAnswer :=
  if size < 12 then .next (.truncated, s)
  else if badAreas base size scratch then .next (.noRoom, s)
  else
    hostBind (loadBytes base 1 s) fun ks s1 =>
      hostBind (issue (applyLines (base + 1) scratch 11 (ks.headD 0)) s1) fun _ s2 =>
        hostBind (loadBytes (scratch + 5) 2 s2) fun sz s3 =>
          let body := (sz.getD 0 0 ++ sz.getD 1 0 : BitVec 16).toNat
          if size < 12 + body then .next (.truncated, s3)
          else readBody (ks.headD 0) base body s3

end Sys2Proof.Machine
end

