-- ==== Sys2Proof/Safety.lean ====
section
/-! DEFINITION. The terms claims are stated in: the invariant of the block, the error table of R201, which bytes a
command needs written, and a run that does not stop. -/

namespace Sys2Proof.Machine

/-- The byte is written: its unwritten mark is cleared (R44). -/
def Memory.written (m : Memory) (a : Nat) : Prop := (m.read a).isSome

/-- ERRC is 0 exactly while ERRV is 0, and codes 6 to 15 never stand (R200, I9). -/
def ErrorRecord.legal (r : ErrorRecord) : Prop :=
  (r.errv = false → r.errc = 0) ∧ (r.errv = true → 1 ≤ r.errc.toNat ∧ r.errc.toNat ≤ 5)

/-- Under WRAP8 an index is an 8-bit value (R10, R27). -/
def idxFits (mode : IdxMode) (t : Nat) : Prop :=
  match mode with
  | .wrap8 => t < 256
  | .unbounded => True

/-- The invariant of the block: BUF in canonical form and inside its bounds (R40); a legal error record (R200); indices
of the mode's width (R27, R28); and, while a flag is 0, the state it guards as reset and CLR leave it (R26, R31). -/
structure State.Inv (s : State) : Prop where
  bufWf : s.buf.wf
  errLegal : s.err.legal
  t0Fits : idxFits Config.params.idxMode s.checksum.t0i
  t1Fits : idxFits Config.params.idxMode s.checksum.t1i
  unseededCleared : s.cipher.seeded = false → s.cipher = CipherState.cleared ∧ s.out = 0
  uninitialisedCleared : s.checksum.sinit = false → s.checksum = ChecksumState.cleared

/-- The code that a command raises, by the table of R201 and the priority of R205; none where it raises none. -/
def commandError (s : State) : Instr → Option ErrCode
  | .nop => none
  | .sinit =>
    if s.len = 0 then some .empty else if bufBytes < s.src.toNat + s.len.toNat then some .range else none
  | .sinitx _ _ => none
  | .sfeed =>
    if s.checksum.sinit = false then some .nosinit
    else if bufBytes < s.src.toNat + s.len.toNat then some .range else none
  | .sbyte _ => if s.checksum.sinit = false then some .nosinit else none
  | .sum32 =>
    if s.len = 0 then some .empty else if bufBytes < s.src.toNat + s.len.toNat then some .range else none
  | .cseed _ => none
  | .cxor =>
    if s.cipher.seeded = false then some .noseed
    else if bufBytes < s.src.toNat + s.len.toNat ∨ bufBytes < s.dst.toNat + s.len.toNat then some .range
    else none
  | .cbyte _ => if s.cipher.seeded = false then some .noseed else none
  | .capply _ =>
    if bufBytes < s.src.toNat + s.len.toNat ∨ bufBytes < s.dst.toNat + s.len.toNat then some .range else none
  | .clr => none

/-- Every byte of the source region is written when the checksum reads it (R62). -/
def State.sourceWritten (s : State) : Prop :=
  ∀ i, i < s.len.toNat → s.buf.written (s.src.toNat + i)

/-- Source byte `i` of CXOR or CAPPLY is written when the command reads it: before the command, or by an earlier byte of
the same command (R61, R62). -/
def State.keystreamByteWritten (s : State) (i : Nat) : Prop :=
  s.buf.written (s.src.toNat + i) ∨ s.src.toNat < s.dst.toNat ∧ s.dst.toNat ≤ s.src.toNat + i

/-- Every source byte of CXOR or CAPPLY is written when the command reads it (R62). -/
def State.keystreamSourceWritten (s : State) : Prop :=
  ∀ i, i < s.len.toNat → s.keystreamByteWritten i

/-- The source and destination regions do not overlap, or are the same region (R142, R243). -/
def State.regionsSound (s : State) : Prop :=
  s.src = s.dst ∨ s.src.toNat + s.len.toNat ≤ s.dst.toNat ∨ s.dst.toNat + s.len.toNat ≤ s.src.toNat

/-- The bytes `BUF[a ..]` are `bs`. -/
def Memory.holds (m : Memory) (a : Nat) (bs : List Byte) : Prop :=
  ∀ i, i < bs.length → m.read (a + i) = bs[i]?

/-- What raising `e` leaves (R202, R203): the record written if none stood, and nothing else changed. -/
def State.recorded (s : State) (e : ErrCode) : State :=
  { s with err := if s.err.errv = true then s.err else { errv := true, errc := e.code } }

/-- `mask(k, j)` (R144): what byte `j` of a run seeded with `k` is XORed with. -/
def maskAt (p : Params) (k : Byte) (j : Nat) : Byte := ktAt p j ^^^ keystreamByte (lcgNext^[j] (lcgSeed k))

/-- The cipher state after `j` bytes of a run seeded with `k` (R25, R143). -/
def CipherState.atPosition (k : Byte) (j : Nat) : CipherState :=
  { lcg := lcgNext^[j] (lcgSeed k), kpos := BitVec.ofNat 3 j, seeded := true }

/-- The index that checksum byte `i` uses when the index starts at `t` (R118). -/
def idxAt (mode : IdxMode) (t i : Nat) : Nat :=
  match mode with
  | .wrap8 => (t + i + 1) % 256
  | .unbounded => t + i + 1

/-- Commands performed one after another. -/
def execAll : List Instr → State → Result
  | [], s => .next s
  | i :: is, s => andThen (exec i s) (execAll is)

/-- A run that stops at no fault and no refusal. -/
def SafeRun (k : Nat) (s : State) : Prop := ∃ t, core.run k s = .next t

end Sys2Proof.Machine
end

