-- ==== Sys2Proof/Certificates/Slice0/Obligations.lean ====
section
/-! DEFINITION. The statements for the provers, in the order of spec/: encoding, reset and the host bus, errors, the
checksum commands, the cipher commands, control, whole-machine rules, framing. -/

open Sys2Proof Sys2Proof.Machine

/-! Encoding (R80 to R86). -/

/-- Derived (R81 to R83): no operand bit of an encoding is dropped. -/
def Obligations.DecodeOfEncodeIsTheCommand : Prop :=
  ∀ i : Instr, i.wellFormed = true → decode (encode i) = .ok i

/-- Derived (R81, R82, R84, R85): a word that decodes is the encoding of what it decodes to, so each command has one
word and each legal word one command. -/
def Obligations.EncodeOfDecodeIsTheWord : Prop :=
  ∀ (w : Word) (i : Instr), decode w = .ok i → encode i = w

/-- R83: a word decodes exactly if it selects a row of the opcode map, to a command of that row's mnemonic, with the
operands as they stand in the word; at most one row matches any word. -/
def Obligations.WordSelectsAtMostOneRow : Prop :=
  ∀ w : Word,
    (∀ i, decode w = .ok i → ∃ r ∈ opcodeMap, r.selects w = true ∧ r.mnemonic = i.mnemonic) ∧
    (∀ r ∈ opcodeMap, r.selects w = true → ∃ i, decode w = .ok i ∧ r.mnemonic = i.mnemonic) ∧
    (∀ r ∈ opcodeMap, ∀ r' ∈ opcodeMap, r.selects w = true → r'.selects w = true → r = r') ∧
    (∀ t0 t1, decode w = .ok (.sinitx t0 t1) → t0 = w.extractLsb' 0 8 ∧ t1 = w.extractLsb' 8 8) ∧
    (∀ b, decode w = .ok (.sbyte b) ∨ decode w = .ok (.cseed b) ∨ decode w = .ok (.cbyte b) ∨
      decode w = .ok (.capply b) → b = w.extractLsb' 0 8)

/-- R86: 6 words are legal format N commands, 1024 format B, 65536 format X, and 66566 of the 2^32 words are legal. -/
def Obligations.LegalWordsNumber66566 : Prop :=
  Set.ncard {w : Word | ∃ i ∈ ([.nop, .sinit, .sfeed, .sum32, .cxor, .clr] : List Instr), decode w = .ok i} = 6 ∧
  Set.ncard {w : Word | ∃ b, decode w = .ok (.sbyte b) ∨ decode w = .ok (.cseed b) ∨ decode w = .ok (.cbyte b) ∨
    decode w = .ok (.capply b)} = 1024 ∧
  Set.ncard {w : Word | ∃ t0 t1, decode w = .ok (.sinitx t0 t1)} = 65536 ∧
  Set.ncard {w : Word | ∃ i, decode w = .ok i} = 66566

/-- R85: OP 0xB to 0xF, and every word of a defined OP with a non-zero bit in a must-be-0 field, is illegal: the CMD
write records ILLEGAL and changes nothing else. -/
def Obligations.ReservedWordsOnlyRecordIllegal : Prop :=
  ∀ (w : Word) (s : State),
    (11 ≤ (w.extractLsb' 28 4).toNat ∨
      ((w.extractLsb' 28 4).toNat ∈ [0, 1, 3, 5, 7, 10] ∧ w.extractLsb' 0 28 ≠ 0) ∨
      ((w.extractLsb' 28 4).toNat ∈ [4, 6, 8, 9] ∧ w.extractLsb' 8 20 ≠ 0) ∨
      ((w.extractLsb' 28 4).toNat = 2 ∧ w.extractLsb' 16 12 ≠ 0)) →
    access (.write 4 0x000 w) s = .next (s.recorded .illegal)

/-- Derived (95_test_vectors.md 2.5): words of the spec's decoding table, one a format and family. -/
def Obligations.SampleWordsDecodeAsTabled : Prop :=
  decode 0x00000000 = .ok .nop ∧ decode 0x10000000 = .ok .sinit ∧
  decode 0x2000ABCD = .ok (.sinitx 0xCD 0xAB) ∧ decode 0x30000000 = .ok .sfeed ∧
  decode 0x400000FF = .ok (.sbyte 0xFF) ∧ decode 0x50000000 = .ok .sum32 ∧
  decode 0x6000005A = .ok (.cseed 0x5A) ∧ decode 0x70000000 = .ok .cxor ∧
  decode 0x80000041 = .ok (.cbyte 0x41) ∧ decode 0x90000011 = .ok (.capply 0x11) ∧
  decode 0xA0000000 = .ok .clr ∧ decode 0x20010000 = .error .lowBitsX ∧ decode 0xC0000000 = .error .reservedOp

/-! Steps, reset and the host bus (R38, R39, R44, R45, R50 to R63). -/

/-- Derived (R38, R58): when the next access writes a word to CMD and the word decodes to a command, the step is that
command, on the state with that access taken. The access list is the model's own (log 4). -/
def Obligations.StepPerformsTheDecodedCommand : Prop :=
  ∀ (s : State) (w : Word) (i : Instr) (rest : List Event),
    s.pending = .write 4 0x000 w :: rest → decode w = .ok i → i.wellFormed = true →
    step s = exec i { s with pending := rest }

/-- Derived (R63): the state after the host's accesses is that of applying them one at a time in issue order. The access
list is the model's own (log 4). The list may hold a platform reset: that the accesses behind it are still performed is
the model's choice, marked unsafe in log 5, and no rule of the spec. -/
def Obligations.StepsApplyAccessesInIssueOrder : Prop :=
  ∀ (es : List Event) (s : State),
    core.run es.length (s.withPending es) = accessAll es (s.withPending [])

/-- Derived (R225, R231): with no access held back the block is idle and its state persists. -/
def Obligations.IdleStatePersists : Prop :=
  ∀ (k : Nat) (s : State), s.pending = [] → core.run k s = .next s

/-- R45: the reset values, both of the state right after reset and of what the platform's reset leaves of any state. -/
def Obligations.ResetLeavesTheListedValues : Prop :=
  ∀ s : State, ∃ t, access .reset s = .next t ∧ ∀ t' ∈ [t, State.reset],
    t'.cipher.lcg = 0x00000000 ∧ t'.cipher.kpos = 0 ∧ t'.cipher.seeded = false ∧
    t'.checksum.t0i = 0 ∧ t'.checksum.t1i = 0 ∧ t'.checksum.spos = 0 ∧ t'.checksum.acc.sum = 0x00000000 ∧
    t'.checksum.acc.lane0 = 0 ∧ t'.checksum.acc.lane1 = 0 ∧ t'.checksum.acc.lane2 = 0 ∧ t'.checksum.acc.lane3 = 0 ∧
    t'.checksum.sinit = false ∧ t'.out = 0 ∧ t'.src = 0 ∧ t'.dst = 0 ∧ t'.len = 0 ∧
    t'.err.errv = false ∧ t'.err.errc = 0 ∧ ∀ a, ¬ t'.buf.written a

/-- R38: a host write of `w` to CMD performs the command `w` or records ILLEGAL, and a read returns 0 with no effect. -/
def Obligations.CmdWritePerformsAndReadsZero : Prop :=
  ∀ (w : Word) (s : State),
    (∀ i, decode w = .ok i → access (.write 4 0x000 w) s = exec i s) ∧
    (∀ e, decode w = .error e → access (.write 4 0x000 w) s = .next (s.recorded .illegal)) ∧
    access (.read 4 0x000) s = .next { s with readLog := 0x00000000 :: s.readLog }

/-- Derived (R32, R37, R39): what each register reads (SUM over ACC[0] to ACC[3], the most significant first), that a
write to a read-only register is ignored without a bus error, and that any access to 0x028 to 0x0FF raises BusError. The
last clause says which field of the model holds which lane (R30). -/
def Obligations.RegisterMapReadsAsListed : Prop :=
  ∀ s : State,
    (∀ off val, (off, val) ∈
        ([(0x000, 0), (0x008, s.src.setWidth 32), (0x00C, s.dst.setWidth 32), (0x010, s.len.setWidth 32),
          (0x014, s.cipher.lcg), (0x018, s.cipher.kpos.setWidth 32),
          (0x01C, BitVec.ofNat 32 (s.checksum.t0i % 256 + 2 ^ 8 * (s.checksum.t1i % 256) +
            2 ^ 16 * s.checksum.spos.toNat)),
          (0x020, BitVec.ofNat 32 (2 ^ 24 * (s.checksum.acc.get 0).toNat + 2 ^ 16 * (s.checksum.acc.get 1).toNat +
            2 ^ 8 * (s.checksum.acc.get 2).toNat + (s.checksum.acc.get 3).toNat)),
          (0x024, s.out.setWidth 32)] : List (BitVec 18 × Word)) →
      access (.read 4 off) s = .next { s with readLog := val :: s.readLog }) ∧
    (∀ v, access (.read 4 0x004) s = .next { s with readLog := v :: s.readLog } →
      v.getLsbD 0 = s.cipher.seeded ∧ v.getLsbD 1 = s.checksum.sinit ∧ v.getLsbD 2 = false ∧
      v.getLsbD 3 = s.err.errv ∧ v.extractLsb' 4 4 = s.err.errc ∧ v.extractLsb' 8 24 = 0) ∧
    (∃ v, access (.read 4 0x004) s = .next { s with readLog := v :: s.readLog }) ∧
    (∀ off ∈ ([0x014, 0x018, 0x01C, 0x020, 0x024] : List (BitVec 18)), ∀ v, access (.write 4 off v) s = .next s) ∧
    (∀ (off : BitVec 18) (width : Nat) (v : Word), 0x028 ≤ off.toNat → off.toNat ≤ 0x0FF →
      access (.read width off) s = .fault .busError ∧ access (.write width off v) s = .fault .busError) ∧
    (s.checksum.acc.get 0 = s.checksum.acc.lane0 ∧ s.checksum.acc.get 1 = s.checksum.acc.lane1 ∧
      s.checksum.acc.get 2 = s.checksum.acc.lane2 ∧ s.checksum.acc.get 3 = s.checksum.acc.lane3)

/-- Derived (R37): the STATUS bits, and that a STATUS write clears the record exactly with bit 3 = 1 and changes nothing
else. -/
def Obligations.StatusReadsItsFieldsAndClearsByBit3 : Prop :=
  ∀ (s : State) (v : Word),
    s.statusWord.toNat = s.cipher.seeded.toNat + 2 * s.checksum.sinit.toNat + 8 * s.err.errv.toNat +
      16 * s.err.errc.toNat ∧
    (v.getLsbD 3 = true → access (.write 4 0x004 v) s = .next { s with err := { errv := false, errc := 0 } }) ∧
    (v.getLsbD 3 = false → access (.write 4 0x004 v) s = .next s)

/-- R34, R35: a write keeps the low 17 bits, the other bits read 0, no command writes SRC or DST, and both reset to 0.
The same of the low 18 bits of LEN. -/
def Obligations.RegionRegistersKeepLowBits : Prop :=
  (∀ (s : State) (v : Word),
    (∃ t, access (.write 4 0x008 v) s = .next t ∧ t = { s with src := BitVec.ofNat 17 v.toNat } ∧
      access (.read 4 0x008) t = .next { t with readLog := BitVec.ofNat 32 (v.toNat % 2 ^ 17) :: t.readLog }) ∧
    (∃ t, access (.write 4 0x00C v) s = .next t ∧ t = { s with dst := BitVec.ofNat 17 v.toNat } ∧
      access (.read 4 0x00C) t = .next { t with readLog := BitVec.ofNat 32 (v.toNat % 2 ^ 17) :: t.readLog }) ∧
    (∃ t, access (.write 4 0x010 v) s = .next t ∧ t = { s with len := BitVec.ofNat 18 v.toNat } ∧
      access (.read 4 0x010) t = .next { t with readLog := BitVec.ofNat 32 (v.toNat % 2 ^ 18) :: t.readLog })) ∧
  (∀ (i : Instr) (s t : State), exec i s = .next t → t.src = s.src ∧ t.dst = s.dst ∧ t.len = s.len) ∧
  State.reset.src = 0 ∧ State.reset.dst = 0 ∧ State.reset.len = 0

/-- R54, with the address map of R50 and the widths of R52: an access raises BusError exactly if it is not a 4-byte
access at a multiple of 4 to offsets 0x00 to 0x27, nor an aligned 1, 2 or 4-byte access to the buffer window. -/
def Obligations.BusErrorExactlyWhenNotAdmitted : Prop :=
  ∀ (width : Nat) (off : BitVec 18) (v : Word) (s : State),
    let admitted := (off.toNat < 0x28 ∧ width = 4 ∧ off.toNat % 4 = 0) ∨
      (0x20000 ≤ off.toNat ∧ (width = 1 ∨ width = 2 ∨ width = 4) ∧ off.toNat % width = 0)
    (access (.read width off) s = .fault .busError ↔ ¬ admitted) ∧
    (access (.write width off v) s = .fault .busError ↔ ¬ admitted)

/-- R53: an aligned 1, 2 or 4-byte write to the buffer window stores the value big-endian and changes nothing else, and
an aligned read of written bytes returns them big-endian. -/
def Obligations.BufferAccessesAreBigEndian : Prop :=
  ∀ (s : State) (width a : Nat) (v : Word), width ∈ [1, 2, 4] → a % width = 0 → a < bufBytes →
    (∃ m, access (.write width (BitVec.ofNat 18 (0x20000 + a)) v) s = .next { s with buf := m } ∧
      (∀ j, j < width → m.read (a + j) = some (BitVec.ofNat 8 (v.toNat / 2 ^ (8 * (width - 1 - j))))) ∧
      (∀ b, b < a ∨ a + width ≤ b → m.read b = s.buf.read b)) ∧
    (∀ bs : List Byte, bs.length = width → s.buf.holds a bs →
      access (.read width (BitVec.ofNat 18 (0x20000 + a))) s =
        .next { s with readLog := BitVec.ofNat 32 (bs.foldl (fun n b => 256 * n + b.toNat) 0) :: s.readLog })

/-- R57: a read of any width after a write of any width returns, for each byte, the value of the last write to it. -/
def Obligations.MixedWidthReadsAreExact : Prop :=
  ∀ (s t : State) (w a r b : Nat) (v : Word), w ∈ [1, 2, 4] → r ∈ [1, 2, 4] → a % w = 0 → b % r = 0 →
    a < bufBytes → b < bufBytes → access (.write w (BitVec.ofNat 18 (0x20000 + a)) v) s = .next t →
    (∀ j, j < r → s.buf.written (b + j) ∨ (a ≤ b + j ∧ b + j < a + w)) →
    ∃ x : Word, access (.read r (BitVec.ofNat 18 (0x20000 + b))) t = .next { t with readLog := x :: t.readLog } ∧
      x.toNat < 2 ^ (8 * r) ∧
      ∀ j, j < r → some (BitVec.ofNat 8 (x.toNat / 2 ^ (8 * (r - 1 - j)))) =
        if a ≤ b + j ∧ b + j < a + w then some (BitVec.ofNat 8 (v.toNat / 2 ^ (8 * (w - 1 - (b + j - a)))))
        else s.buf.read (b + j)

/-- Derived (R44): a host read that meets an unwritten byte is UNINIT_READ; that the byte it names is the first is the
model's choice (log 7). -/
def Obligations.HostReadOfUnwrittenByteFaults : Prop :=
  ∀ (s : State) (width a j : Nat), width ∈ [1, 2, 4] → a % width = 0 → a < bufBytes → j < width →
    (∀ i, i < j → s.buf.written (a + i)) → ¬ s.buf.written (a + j) →
    access (.read width (BitVec.ofNat 18 (0x20000 + a))) s = .fault (.uninitRead (a + j))

/-- Derived (R59): a host read changes nothing but what it returns, and a host write outside CMD leaves the engine, and
outside STATUS the error record, as they are. -/
def Obligations.HostAccessesLeaveTheEngine : Prop :=
  (∀ (width : Nat) (off : BitVec 18) (s t : State), access (.read width off) s = .next t →
    ∃ v, t = { s with readLog := v :: s.readLog }) ∧
  (∀ (width : Nat) (off : BitVec 18) (v : Word) (s t : State), off ≠ 0x000 →
    access (.write width off v) s = .next t →
    t.cipher = s.cipher ∧ t.checksum = s.checksum ∧ t.out = s.out ∧ t.pending = s.pending ∧
      t.readLog = s.readLog ∧ (off ≠ 0x004 → t.err = s.err) ∧ (off.toNat < 0x20000 → t.buf = s.buf) ∧
      (0x20000 ≤ off.toNat → t.src = s.src ∧ t.dst = s.dst ∧ t.len = s.len))

/-- Derived (R50): host address BLOCK_BASE + o reaches offset o for every offset of the aperture, and no address outside
the aperture reaches the block. An access issued at BLOCK_BASE + o joins the end of the held-back accesses with offset o,
and one issued outside the aperture leaves the block's state; that it does so is the model's choice (log 4, log 8). -/
def Obligations.HostAddressesMapToOffsets : Prop :=
  (∀ base address : Nat,
    (∀ o : BitVec 18, apertureOffset base address = some o ↔ address = base + o.toNat) ∧
    (apertureOffset base address = none ↔ address < base ∨ base + 0x40000 ≤ address)) ∧
  (∀ (s : State) (mk : BitVec 18 → Event),
    (∀ o : BitVec 18, s.issueAt (Config.blockBase + o.toNat) mk = { s with pending := s.pending ++ [mk o] }) ∧
    (∀ address, address < Config.blockBase ∨ Config.blockBase + 0x40000 ≤ address → s.issueAt address mk = s))

/-- R88: the pseudo-instructions' accesses, and what these do. `clrerr` clears the record, `region` writes the three
registers, `apply` computes the source's apply into the destination, `checksum` returns checksum32 to the host. -/
def Obligations.PseudoInstructionsComputeTheSourceFunctions : Prop :=
  ∀ (s : State) (a b n : Nat) (d : List Byte) (k : Byte),
    (HostLine.region a b n).accesses =
      [.write 4 0x008 (BitVec.ofNat 32 a), .write 4 0x00C (BitVec.ofNat 32 b), .write 4 0x010 (BitVec.ofNat 32 n)] ∧
    (HostLine.applyKey a b n k).accesses =
      (HostLine.region a b n).accesses ++ [.write 4 0x000 (0x90000000 ||| k.setWidth 32)] ∧
    (HostLine.checksum a n).accesses = [.write 4 0x008 (BitVec.ofNat 32 a), .write 4 0x010 (BitVec.ofNat 32 n),
      .write 4 0x000 0x50000000, .read 4 0x020] ∧
    HostLine.clrerr.accesses = [.write 4 0x004 0x00000008] ∧
    accessAll HostLine.clrerr.accesses s = .next { s with err := { errv := false, errc := 0 } } ∧
    accessAll (HostLine.region a b n).accesses s =
      .next { s with src := BitVec.ofNat 17 a, dst := BitVec.ofNat 17 b, len := BitVec.ofNat 18 n } ∧
    (a + d.length ≤ 131072 → b + d.length ≤ 131072 → a = b ∨ a + d.length ≤ b ∨ b + d.length ≤ a →
      s.buf.holds a d → ∃ t, accessAll (HostLine.applyKey a b d.length k).accesses s = .next t ∧
        t.buf.holds b (applyKey Config.params d k)) ∧
    (d ≠ [] → a + d.length ≤ 131072 → s.buf.holds a d →
      ∃ t sum, accessAll (HostLine.checksum a d.length).accesses s = .next t ∧
        checksum32 Config.params d = some sum ∧ t.readLog = sum :: s.readLog)

/-! Errors (R200 to R205). -/

/-- R201, R202, R205: a reserved word records ILLEGAL; a command whose check fails records the code of its first failing
check in the order of R205 if no error is recorded, and changes nothing else; a command whose checks pass records
nothing, so no other command-and-code pair can occur. -/
def Obligations.ErrorsAreTabledPreciseAndPrioritised : Prop :=
  ∀ s : State,
    (∀ w e, decode w = .error e → access (.write 4 0x000 w) s = .next (s.recorded .illegal)) ∧
    (∀ i e, commandError s i = some e → exec i s = .next (s.recorded e)) ∧
    (∀ i t, commandError s i = none → exec i s = .next t → t.err = s.err)

/-- Derived (R203): while an error is recorded the block performs commands exactly as when none is. -/
def Obligations.RecordDoesNotChangeWhatCommandsDo : Prop :=
  ∀ (i : Instr) (s : State) (r r' : ErrorRecord),
    (∀ t, exec i (s.withErr r) = .next t → ∃ e, exec i (s.withErr r') = .next (t.withErr e)) ∧
    (∀ f, exec i (s.withErr r) = .fault f → exec i (s.withErr r') = .fault f)

/-- Derived (R203, R208): a recorded error stays until a STATUS write with bit 3 = 1 or a reset. -/
def Obligations.RecordClearedOnlyByStatusWriteOrReset : Prop :=
  ∀ (e : Event) (s t : State), s.err.errv = true → access e s = .next t →
    t.err = s.err ∨ e = .reset ∨ ∃ v : Word, e = .write 4 0x004 v ∧ v.getLsbD 3 = true

/-! The checksum commands (R100 to R119). -/

/-- R100, R101: SINIT with each of its outcomes. -/
def Obligations.SinitInitialisesFromTheRegion : Prop :=
  decode 0x10000000 = .ok .sinit ∧
  ∀ s : State,
    (s.len = 0 → exec .sinit s = .next (s.recorded .empty)) ∧
    (s.len ≠ 0 → 131072 < s.src.toNat + s.len.toNat → exec .sinit s = .next (s.recorded .range)) ∧
    (s.len ≠ 0 → s.src.toNat + s.len.toNat ≤ 131072 →
      (∀ m, s.buf.read (s.src.toNat + s.len.toNat / 2) = some m →
        exec .sinit s = .next { s with checksum :=
          { t0i := s.len.toNat % 256, t1i := m.toNat, spos := 0,
            acc := { lane0 := 0, lane1 := 0, lane2 := 0, lane3 := 0 }, sinit := true } }) ∧
      (s.buf.read (s.src.toNat + s.len.toNat / 2) = none →
        exec .sinit s = .fault (.uninitRead (s.src.toNat + s.len.toNat / 2))))

/-- R103, R104: SINITX, for every pair of bytes, raises no error. -/
def Obligations.SinitxInitialisesFromImmediates : Prop :=
  ∀ (imml immh : Byte) (s : State),
    decode (0x20000000 ||| (immh.setWidth 32 <<< 8) ||| imml.setWidth 32) = .ok (.sinitx imml immh) ∧
    exec (.sinitx imml immh) s = .next { s with checksum :=
      { t0i := imml.toNat, t1i := immh.toNat, spos := 0,
        acc := { lane0 := 0, lane1 := 0, lane2 := 0, lane3 := 0 }, sinit := true } }

/-- R109, R110: SBYTE. The lane SPOS names takes the byte, the others stand. -/
def Obligations.SbyteFeedsOneByte : Prop :=
  ∀ (d : Byte) (s : State),
    decode (0x40000000 ||| d.setWidth 32) = .ok (.sbyte d) ∧
    (s.checksum.sinit = false → exec (.sbyte d) s = .next (s.recorded .nosinit)) ∧
    (s.checksum.sinit = true →
      let t0 := idxInc Config.params.idxMode s.checksum.t0i
      let t1 := idxInc Config.params.idxMode s.checksum.t1i
      let tmp := t1At Config.params t1 ^^^ t0At Config.params t0 ^^^ d
      ∃ acc : Lanes,
        exec (.sbyte d) s = .next { s with checksum :=
          { t0i := t0, t1i := t1, spos := s.checksum.spos + 1, acc := acc, sinit := true } } ∧
        ∀ l : BitVec 2, acc.get l = if l = s.checksum.spos then s.checksum.acc.get l + tmp else s.checksum.acc.get l)

/-- R106, R107: SFEED with each of its outcomes; over a written region it is the loop of SBYTE's step over the bytes in
ascending order. -/
def Obligations.SfeedFeedsTheRegionInOrder : Prop :=
  decode 0x30000000 = .ok .sfeed ∧
  ∀ s : State,
    (s.checksum.sinit = false → exec .sfeed s = .next (s.recorded .nosinit)) ∧
    (s.checksum.sinit = true → 131072 < s.src.toNat + s.len.toNat → exec .sfeed s = .next (s.recorded .range)) ∧
    (s.checksum.sinit = true → s.src.toNat + s.len.toNat ≤ 131072 →
      (s.sourceWritten → ∃ c : Nat → ChecksumState,
        c 0 = s.checksum ∧
        (∀ i b, i < s.len.toNat → s.buf.read (s.src.toNat + i) = some b →
          (c (i + 1)).t0i = idxInc Config.params.idxMode (c i).t0i ∧
          (c (i + 1)).t1i = idxInc Config.params.idxMode (c i).t1i ∧
          (c (i + 1)).spos = (c i).spos + 1 ∧ (c (i + 1)).sinit = true ∧
          ∀ l, (c (i + 1)).acc.get l = if l = (c i).spos
            then (c i).acc.get l + mix Config.params (c (i + 1)).t0i (c (i + 1)).t1i b else (c i).acc.get l) ∧
        exec .sfeed s = .next { s with checksum := c s.len.toNat }) ∧
      (∀ i, i < s.len.toNat → (∀ j, j < i → s.buf.written (s.src.toNat + j)) →
        ¬ s.buf.written (s.src.toNat + i) → exec .sfeed s = .fault (.uninitRead (s.src.toNat + i))))

/-- R113: the outcomes of SUM32. The first byte it needs written is the middle one, then the region in ascending order. -/
def Obligations.Sum32ChecksThenReadsMiddleFirst : Prop :=
  ∀ s : State,
    (s.len = 0 → exec .sum32 s = .next (s.recorded .empty)) ∧
    (s.len ≠ 0 → 131072 < s.src.toNat + s.len.toNat → exec .sum32 s = .next (s.recorded .range)) ∧
    (s.len ≠ 0 → s.src.toNat + s.len.toNat ≤ 131072 →
      (s.sourceWritten → ∃ c, exec .sum32 s = .next { s with checksum := c } ∧ c.sinit = true) ∧
      (¬ s.buf.written (s.src.toNat + s.len.toNat / 2) →
        exec .sum32 s = .fault (.uninitRead (s.src.toNat + s.len.toNat / 2))) ∧
      (s.buf.written (s.src.toNat + s.len.toNat / 2) → ∀ i, i < s.len.toNat →
        (∀ j, j < i → s.buf.written (s.src.toNat + j)) → ¬ s.buf.written (s.src.toNat + i) →
        exec .sum32 s = .fault (.uninitRead (s.src.toNat + i))))

/-- R112: past its checks SUM32 is the body of SINIT followed by the loop of SFEED as
one command, and over a written region SUM is afterwards checksum32 of its bytes, for every table and both index modes. -/
def Obligations.Sum32ComputesChecksum32 : Prop :=
  decode 0x50000000 = .ok .sum32 ∧
  ∀ s : State,
    (s.len = 0 → exec .sum32 s = .next (s.recorded .empty)) ∧
    (s.len ≠ 0 → 131072 < s.src.toNat + s.len.toNat → exec .sum32 s = .next (s.recorded .range)) ∧
    (s.len ≠ 0 → s.src.toNat + s.len.toNat ≤ 131072 →
      exec .sum32 s = andThen (exec .sinit s) (exec .sfeed) ∧
      ∀ bs : List Byte, bs.length = s.len.toNat → s.buf.holds s.src.toNat bs →
        ∃ (t : State) (sum : Word), exec .sum32 s = .next t ∧ checksum32 Config.params bs = some sum ∧
          t.checksum.acc.sum = sum ∧ t.checksum.spos.toNat = bs.length % 4 ∧ t.checksum.sinit = true ∧
          t = { s with checksum := t.checksum })

/-- Derived (R106, R112, R117, R118): lane `l` after SUM32 is the sum mod 256 of the masked bytes at positions `l`,
`l+4`, ..., with the indices of R118. -/
def Obligations.Sum32LanesAreSumsOfMaskedBytes : Prop :=
  ∀ (s : State) (bs : List Byte) (m : Byte), bs ≠ [] → bs.length = s.len.toNat →
    s.src.toNat + s.len.toNat ≤ 131072 → s.buf.holds s.src.toNat bs → bs[bs.length / 2]? = some m →
    ∃ t, exec .sum32 s = .next t ∧
      ∀ l : BitVec 2, t.checksum.acc.get l =
        BitVec.ofNat 8 (∑ i ∈ (Finset.range bs.length).filter (fun i => i % 4 = l.toNat),
          (mix Config.params (idxAt Config.params.idxMode (bs.length % 256) i)
            (idxAt Config.params.idxMode m.toNat i) (bs.getD i 0)).toNat)

/-- R115: SINITX with the length mod 256 and the middle byte, then SBYTE of each byte, leaves the checksum state that
SUM32 over a region holding the payload leaves, so both leave SUM = checksum32. -/
def Obligations.StreamingEqualsSum32 : Prop :=
  ∀ (s u : State) (bs : List Byte) (m : Byte), bs ≠ [] → bs.length = s.len.toNat →
    s.src.toNat + s.len.toNat ≤ 131072 → s.buf.holds s.src.toNat bs → bs[bs.length / 2]? = some m →
    ∃ t v, exec .sum32 s = .next t ∧
      execAll (.sinitx (BitVec.ofNat 8 bs.length) m :: bs.map .sbyte) u = .next v ∧
      v = { u with checksum := t.checksum } ∧ checksum32 Config.params bs = some v.checksum.acc.sum

/-- R116: one SFEED over a concatenation equals SFEED over the first part followed by SFEED over the second, wherever
the parts lie. -/
def Obligations.SfeedSplits : Prop :=
  ∀ (s s1 s2 : State) (r1 r2 : List Byte), s.checksum.sinit = true → s1.checksum = s.checksum →
    s1.src.toNat + s1.len.toNat ≤ 131072 → s1.len.toNat = r1.length → s1.buf.holds s1.src.toNat r1 →
    s2.src.toNat + s2.len.toNat ≤ 131072 → s2.len.toNat = r2.length → s2.buf.holds s2.src.toNat r2 →
    s.src.toNat + s.len.toNat ≤ 131072 → s.len.toNat = r1.length + r2.length → s.buf.holds s.src.toNat (r1 ++ r2) →
    ∃ t t1 t2, exec .sfeed s = .next t ∧ exec .sfeed s1 = .next t1 ∧
      exec .sfeed (s2.withChecksum t1.checksum) = .next t2 ∧ t2.checksum = t.checksum

/-- Derived (R117): lane `l` of SUM32 depends only on the length, the middle byte and the bytes at positions that are
`l` mod 4. -/
def Obligations.LaneDependsOnItsOwnPositions : Prop :=
  ∀ (s s' t t' : State) (l : BitVec 2), s.len = s'.len → exec .sum32 s = .next t → exec .sum32 s' = .next t' →
    commandError s .sum32 = none → commandError s' .sum32 = none →
    s.buf.read (s.src.toNat + s.len.toNat / 2) = s'.buf.read (s'.src.toNat + s.len.toNat / 2) →
    (∀ i, i < s.len.toNat → i % 4 = l.toNat → s.buf.read (s.src.toNat + i) = s'.buf.read (s'.src.toNat + i)) →
    t.checksum.acc.get l = t'.checksum.acc.get l

/-- Derived (R10, 93_implementation_defined.md I2): the two index modes give one checksum whenever no index passes 255. -/
def Obligations.IndexModesAgreeBelow256 : Prop :=
  ∀ (p : Params) (bs : List Byte) (m : Byte), bs[bs.length / 2]? = some m →
    bs.length % 256 + bs.length ≤ 255 → m.toNat + bs.length ≤ 255 →
    checksum32 { p with idxMode := .wrap8 } bs = checksum32 { p with idxMode := .unbounded } bs

/-! The cipher commands (R130 to R146). -/

/-- R14: seed, next, ksb, inc and mix as arithmetic on naturals; no bit above 31 is kept, and the keystream byte is bits
20 to 13. Beside them, the cipher's table index: byte `i` of a run uses KT[i mod 8] (R15, R25). -/
def Obligations.DerivedFunctionsAreTheirArithmetic : Prop :=
  (∀ k : Byte, (lcgSeed k).toNat = (54323 * k.toNat + 1) % 2 ^ 32) ∧
  (∀ s : Word, (lcgNext s).toNat = (54323 * s.toNat + 1) % 2 ^ 32) ∧
  (∀ s : Word, (keystreamByte s).toNat = (s.toNat >>> 13) &&& 0xFF) ∧
  (∀ t : Nat, idxInc .wrap8 t = (t + 1) % 256 ∧ idxInc .unbounded t = t + 1) ∧
  (∀ (p : Params) (t0 t1 : Nat) (b : Byte),
    mix p t0 t1 b = p.t1.toList.getD (t1 % 9) 0 ^^^ p.t0.toList.getD (t0 % 7) 0 ^^^ b) ∧
  (∀ (p : Params) (i : Nat), ktAt p i = p.kt.toList.getD (i % 8) 0)

/-- R130, R131: CSEED. The modulus never acts. -/
def Obligations.CseedSeedsTheKeystream : Prop :=
  ∀ (k : Byte) (s : State),
    decode (0x60000000 ||| k.setWidth 32) = .ok (.cseed k) ∧
    ∃ lcg : Word, lcg.toNat = 54323 * k.toNat + 1 ∧
      exec (.cseed k) s = .next { s with cipher := { lcg := lcg, kpos := 0, seeded := true } }

/-- R136, R137: CBYTE. -/
def Obligations.CbyteEnciphersIntoOut : Prop :=
  ∀ (d : Byte) (s : State),
    decode (0x80000000 ||| d.setWidth 32) = .ok (.cbyte d) ∧
    (s.cipher.seeded = false → exec (.cbyte d) s = .next (s.recorded .noseed)) ∧
    (s.cipher.seeded = true → exec (.cbyte d) s = .next { s with
      out := d ^^^ ktAt Config.params s.cipher.kpos.toNat ^^^ s.cipher.lcg.extractLsb' 13 8
      cipher := { lcg := BitVec.ofNat 32 (54323 * s.cipher.lcg.toNat + 1),
                  kpos := BitVec.ofNat 3 (s.cipher.kpos.toNat + 1), seeded := true } })

/-- R133, R134, in the order of R61: CXOR with each of its outcomes. Byte `i` is read from the memory that byte `i-1`
left, and written before byte `i+1` is read; the first source byte that is unwritten when it is read is the fault's. -/
def Obligations.CxorRunsByteByByte : Prop :=
  decode 0x70000000 = .ok .cxor ∧
  ∀ s : State,
    (s.cipher.seeded = false → exec .cxor s = .next (s.recorded .noseed)) ∧
    (s.cipher.seeded = true → 131072 < s.src.toNat + s.len.toNat ∨ 131072 < s.dst.toNat + s.len.toNat →
      exec .cxor s = .next (s.recorded .range)) ∧
    (s.cipher.seeded = true → s.src.toNat + s.len.toNat ≤ 131072 → s.dst.toNat + s.len.toNat ≤ 131072 →
      (s.keystreamSourceWritten → ∃ (c : Nat → CipherState) (m : Nat → Memory),
        c 0 = s.cipher ∧ m 0 = s.buf ∧
        (∀ i, i < s.len.toNat →
          c (i + 1) = { lcg := BitVec.ofNat 32 (54323 * (c i).lcg.toNat + 1),
                        kpos := BitVec.ofNat 3 ((c i).kpos.toNat + 1), seeded := true } ∧
          ∃ b, (m i).read (s.src.toNat + i) = some b ∧
            (m (i + 1)).read (s.dst.toNat + i) =
              some (b ^^^ ktAt Config.params (c i).kpos.toNat ^^^ (c i).lcg.extractLsb' 13 8) ∧
            ∀ a, a ≠ s.dst.toNat + i → (m (i + 1)).read a = (m i).read a) ∧
        exec .cxor s = .next { s with cipher := c s.len.toNat, buf := m s.len.toNat }) ∧
      (∀ i, i < s.len.toNat → (∀ j, j < i → s.keystreamByteWritten j) → ¬ s.keystreamByteWritten i →
        exec .cxor s = .fault (.uninitRead (s.src.toNat + i))))

/-- R140: the outcomes of CAPPLY. It cannot raise NOSEED, a refused one does not seed, and the first source byte that is
unwritten when it is read is the fault's. -/
def Obligations.CapplyChecksBeforeSeeding : Prop :=
  ∀ (k : Byte) (s : State),
    (131072 < s.src.toNat + s.len.toNat ∨ 131072 < s.dst.toNat + s.len.toNat →
      exec (.capply k) s = .next (s.recorded .range)) ∧
    (s.src.toNat + s.len.toNat ≤ 131072 → s.dst.toNat + s.len.toNat ≤ 131072 →
      (s.keystreamSourceWritten → ∃ c m, exec (.capply k) s = .next { s with cipher := c, buf := m } ∧
        c.seeded = true) ∧
      (∀ i, i < s.len.toNat → (∀ j, j < i → s.keystreamByteWritten j) → ¬ s.keystreamByteWritten i →
        exec (.capply k) s = .fault (.uninitRead (s.src.toNat + i))))

/-- R139: past its check CAPPLY is CSEED followed by CXOR as one command, and between regions that do not overlap, and
in place, it leaves apply of the old source bytes at DST, every other byte of BUF as it was, and the keystream after the
last byte. -/
def Obligations.CapplyComputesApply : Prop :=
  ∀ (k : Byte) (s : State),
    decode (0x90000000 ||| k.setWidth 32) = .ok (.capply k) ∧
    (131072 < s.src.toNat + s.len.toNat ∨ 131072 < s.dst.toNat + s.len.toNat →
      exec (.capply k) s = .next (s.recorded .range)) ∧
    (s.src.toNat + s.len.toNat ≤ 131072 → s.dst.toNat + s.len.toNat ≤ 131072 →
      exec (.capply k) s = andThen (exec (.cseed k) s) (exec .cxor) ∧
      ∀ d : List Byte, d.length = s.len.toNat → s.regionsSound → s.buf.holds s.src.toNat d →
        ∃ m, exec (.capply k) s = .next { s with cipher := CipherState.atPosition k d.length, buf := m } ∧
          m.holds s.dst.toNat (applyKey Config.params d k) ∧
          ∀ a, a < s.dst.toNat ∨ s.dst.toNat + s.len.toNat ≤ a → m.read a = s.buf.read a)

/-- R144, for any mix of CXOR and CBYTE: after `j` bytes of a run seeded with `k`, CBYTE XORs with mask(k, j)
and CXOR with mask(k, j), mask(k, j+1), ...; both leave the run after the bytes they took. Distinct data bytes give
distinct outputs. -/
def Obligations.RunContinuesAcrossCommands : Prop :=
  ∀ (k : Byte) (j : Nat) (s : State),
    exec (.cseed k) s = .next { s with cipher := CipherState.atPosition k 0 } ∧
    (∀ d d' : Byte, d ^^^ maskAt Config.params k j = d' ^^^ maskAt Config.params k j → d = d') ∧
    (s.cipher = CipherState.atPosition k j →
      (∀ d, exec (.cbyte d) s = .next { s with
        out := d ^^^ maskAt Config.params k j, cipher := CipherState.atPosition k (j + 1) }) ∧
      (∀ d : List Byte, d.length = s.len.toNat → s.src.toNat + s.len.toNat ≤ 131072 →
        s.dst.toNat + s.len.toNat ≤ 131072 → s.regionsSound → s.buf.holds s.src.toNat d →
        ∃ m, exec .cxor s = .next { s with cipher := CipherState.atPosition k (j + d.length), buf := m } ∧
          (∀ i b, d[i]? = some b → m.read (s.dst.toNat + i) = some (b ^^^ maskAt Config.params k (j + i))) ∧
          ∀ a, a < s.dst.toNat ∨ s.dst.toNat + s.len.toNat ≤ a → m.read a = s.buf.read a))

/-- Derived (R143): after CSEED, CXOR over `d1` then CXOR over `d2`, wherever they lie, leaves the bytes of apply(d1 || d2, k)
and its final keystream state. -/
def Obligations.TwoCxorsEqualOneApply : Prop :=
  ∀ (k : Byte) (s1 t1 s2 : State) (d1 d2 : List Byte), exec (.cseed k) s1 = .next t1 →
    d1.length = s1.len.toNat → s1.src.toNat + s1.len.toNat ≤ 131072 → s1.dst.toNat + s1.len.toNat ≤ 131072 →
    s1.regionsSound → s1.buf.holds s1.src.toNat d1 →
    d2.length = s2.len.toNat → s2.src.toNat + s2.len.toNat ≤ 131072 → s2.dst.toNat + s2.len.toNat ≤ 131072 →
    s2.regionsSound →
    ∃ u1, exec .cxor t1 = .next u1 ∧
      u1.buf.holds s1.dst.toNat ((applyKey Config.params (d1 ++ d2) k).take d1.length) ∧
      (s2.cipher = u1.cipher → s2.buf = u1.buf → s2.buf.holds s2.src.toNat d2 → ∃ u2, exec .cxor s2 = .next u2 ∧
        u2.buf.holds s2.dst.toNat ((applyKey Config.params (d1 ++ d2) k).drop d1.length) ∧
        u2.cipher = CipherState.atPosition k (d1.length + d2.length))

/-- R142: CAPPLY k from A to B and then from B to C leaves the old bytes of A at C, between regions that do not overlap
and in place. -/
def Obligations.CapplyTwiceRestores : Prop :=
  ∀ (k : Byte) (s : State) (c : BitVec 17) (d : List Byte), d.length = s.len.toNat →
    s.src.toNat + s.len.toNat ≤ 131072 → s.dst.toNat + s.len.toNat ≤ 131072 → c.toNat + s.len.toNat ≤ 131072 →
    s.regionsSound → ((s.withSrc s.dst).withDst c).regionsSound → s.buf.holds s.src.toNat d →
    ∃ t u, exec (.capply k) s = .next t ∧ exec (.capply k) ((t.withSrc s.dst).withDst c) = .next u ∧
      u.buf.holds c.toNat d

/-- R19: the source's apply is self-inverse for every table. -/
def Obligations.ApplyIsAnInvolution : Prop :=
  ∀ (p : Params) (d : List Byte) (k : Byte),
    applyKey p (applyKey p d k) k = d ∧ (applyKey p d k).length = d.length

/-- R145: key 1 is the only key whose seed is another key's seed advanced, and its keystream is key 0's from the second
byte on. -/
def Obligations.OnlyKeyOneIsAnotherKeyAdvanced : Prop :=
  (∀ j k : Byte, lcgSeed k = lcgNext (lcgSeed j) ↔ j = 0 ∧ k = 1) ∧
  (∀ n : Nat, keystreamByte (lcgNext^[n] (lcgSeed 1)) = keystreamByte (lcgNext^[n + 1] (lcgSeed 0))) ∧
  (∀ k : Byte, (lcgSeed k).toNat = 54323 * k.toNat + 1) ∧
  lcgSeed 2 = 0x0001A867 ∧ lcgNext (lcgSeed 1) = 0xAFE5565D

/-! The control commands (R160, R163). -/

/-- R160: NOP. -/
def Obligations.NopChangesNothing : Prop :=
  decode 0x00000000 = .ok .nop ∧ ∀ s : State, exec .nop s = .next s

/-- R163: CLR. -/
def Obligations.ClrClearsCipherChecksumAndOut : Prop :=
  decode 0xA0000000 = .ok .clr ∧
  ∀ s : State, exec .clr s = .next { s with
    cipher := { lcg := 0, kpos := 0, seeded := false }
    checksum := { t0i := 0, t1i := 0, spos := 0, acc := { lane0 := 0, lane1 := 0, lane2 := 0, lane3 := 0 },
                  sinit := false }
    out := 0 }

/-! Whole-machine rules. -/

/-- Derived (R23, R30, R33 to R36, R40, R134, R163): what every command leaves unchanged. BUF changes only by CXOR and
CAPPLY and only in [DST, DST+LEN). -/
def Obligations.CommandFrame : Prop :=
  ∀ (i : Instr) (s t : State), exec i s = .next t →
    t.src = s.src ∧ t.dst = s.dst ∧ t.len = s.len ∧ t.pending = s.pending ∧ t.readLog = s.readLog ∧
    (i ∈ [.nop, .sinit, .sfeed, .sum32] ∨ (∃ a b, i = .sinitx a b) ∨ (∃ d, i = .sbyte d) → t.cipher = s.cipher) ∧
    (i ∈ [.nop, .cxor] ∨ (∃ d, i = .cseed d ∨ i = .cbyte d ∨ i = .capply d) → t.checksum = s.checksum) ∧
    (i ≠ .clr → (∀ d, i ≠ .cbyte d) → t.out = s.out) ∧
    (i ≠ .cxor → (∀ k, i ≠ .capply k) → t.buf = s.buf) ∧
    (∀ a, a < s.dst.toNat ∨ s.dst.toNat + s.len.toNat ≤ a → t.buf.read a = s.buf.read a)

/-- Derived (R26, R31): what the two guard flags are after each access that completes: after a command as listed, after
reset 0, and after every other access, a CMD write of an Illegal word included, as before. -/
def Obligations.GuardFlagsFollowSeedInitialiseAndClear : Prop :=
  (∀ (i : Instr) (s t : State), exec i s = .next t →
    t.cipher.seeded = (match i with
      | .clr => false
      | .cseed _ => true
      | .capply _ => if commandError s i = none then true else s.cipher.seeded
      | _ => s.cipher.seeded) ∧
    t.checksum.sinit = (match i with
      | .clr => false
      | .sinitx _ _ => true
      | .sinit => if commandError s i = none then true else s.checksum.sinit
      | .sum32 => if commandError s i = none then true else s.checksum.sinit
      | _ => s.checksum.sinit)) ∧
  (∀ (e : Event) (s t : State), access e s = .next t → (∀ w i, decode w = .ok i → e ≠ .write 4 0x000 w) →
    e ≠ .reset → t.cipher.seeded = s.cipher.seeded ∧ t.checksum.sinit = s.checksum.sinit) ∧
  (∀ s t : State, access .reset s = .next t → t.cipher.seeded = false ∧ t.checksum.sinit = false)

/-- Derived (R23): no checksum command reads the cipher state, and no cipher command the checksum state. -/
def Obligations.CipherAndChecksumAreDisjoint : Prop :=
  (∀ (i : Instr) (s t : State) (c : CipherState),
    i ∈ [.sinit, .sfeed, .sum32] ∨ (∃ a b, i = .sinitx a b) ∨ (∃ d, i = .sbyte d) → exec i s = .next t →
    exec i (s.withCipher c) = .next (t.withCipher c)) ∧
  (∀ (i : Instr) (s t : State) (c : ChecksumState),
    i = .cxor ∨ (∃ d, i = .cseed d ∨ i = .cbyte d ∨ i = .capply d) → exec i s = .next t →
    exec i (s.withChecksum c) = .next (t.withChecksum c))

/-- Derived (R119, R179): SUM32 past its checks, and CAPPLY, do not depend on the engine state before them, so neither
do the framing procedures. -/
def Obligations.WholeCommandsForgetTheEngineState : Prop :=
  ∀ (s s' t : State) (k : Byte), s.buf = s'.buf → s.src = s'.src → s.dst = s'.dst → s.len = s'.len →
    (commandError s .sum32 = none → exec .sum32 s = .next t → ∃ t', exec .sum32 s' = .next t' ∧
      t'.checksum = t.checksum) ∧
    (commandError s (.capply k) = none → exec (.capply k) s = .next t → ∃ t', exec (.capply k) s' = .next t' ∧
      t'.cipher = t.cipher ∧ t'.buf = t.buf)

/-- Derived (R44, R45): the reset state meets the invariant. -/
def Obligations.ResetMeetsTheInvariant : Prop := State.reset.Inv

/-- Derived (R10, R26, R27, R31, R40, R200): every step keeps the invariant, from every state that meets it. -/
def Obligations.EveryStepKeepsTheInvariant : Prop :=
  ∀ s t : State, s.Inv → step s = .next t → t.Inv

/-! Framing (R170 to R178). -/

/-- R172: wire byte 1 + j, across header and payload. -/
def Obligations.WireBytesAreOneKeystreamRun : Prop :=
  ∀ (p : Params) (k : Byte) (h : Header) (payload : List Byte) (j : Nat) (x : Byte),
    (wireBytes p k h payload)[0]? = some k ∧ h.plain.length = 11 ∧ Header.ofBytes h.plain = h ∧
    ((h.plain ++ payload)[j]? = some x → (wireBytes p k h payload)[1 + j]? =
      some (x ^^^ ktAt p j ^^^ keystreamByte (lcgNext^[j] (lcgSeed k))))

/-- R174: the encode procedure leaves the wire bytes of the payload's header at its base, from every state. -/
def Obligations.WritePartLeavesTheWireBytes : Prop :=
  ∀ (k : Byte) (t : Tag) (n : BitVec 16) (payload : List Byte) (base : Nat) (s : State),
    1 ≤ payload.length → payload.length ≤ 65535 → base + 12 + payload.length ≤ 131072 →
    ∃ (c : Word) (u : State), checksum32 Config.params payload = some c ∧
      writePart k t n payload base s = .next (.encoded, u) ∧
      u.buf.holds base (wireBytes Config.params k (encodeHeader t n payload c) payload)

/-- R175: an empty payload makes the block record EMPTY and the host report InvariantViolation; one over 65535 bytes is
refused before any access. -/
def Obligations.WritePartReportsInvariantViolation : Prop :=
  ∀ (k : Byte) (t : Tag) (n : BitVec 16) (payload : List Byte) (base : Nat) (s : State),
    (payload = [] → base + 12 ≤ 131072 → ∃ u, writePart k t n payload base s = .next (.invariantViolation, u) ∧
      u.err = (if s.err.errv = true then s.err else { errv := true, errc := 4 }) ∧ u.buf = s.buf) ∧
    (65535 < payload.length → writePart k t n payload base s = .next (.invariantViolation, s))

/-- Derived (R176, R177): the decode procedure on wire bytes whose length field is true gives back key, header and
payload, as a part exactly if the payload is not empty and its checksum is the header's. That the CorruptData answer hands
on key, header and payload is the model's choice (log 11). -/
def Obligations.ReadPartDecodesWireBytes : Prop :=
  ∀ (k : Byte) (h : Header) (payload : List Byte) (base scratch : Nat) (s : State),
    h.bodySize.toNat = payload.length → badAreas base (12 + payload.length) scratch = false →
    s.buf.holds base (wireBytes Config.params k h payload) →
    ∃ u, readPart base (12 + payload.length) scratch s =
        .next (if checksum32 Config.params payload = some h.checksum then .part k h payload
               else .corruptData k h payload, u) ∧
      u.buf.holds (base + 1) (h.plain ++ payload)

/-- Derived (R176 steps 1 and 4, R177): a wire shorter than 12 bytes, or shorter than its header declares, is reported
Truncated. -/
def Obligations.ReadPartReportsTruncated : Prop :=
  (∀ (base size scratch : Nat) (s : State), size < 12 → readPart base size scratch s = .next (.truncated, s)) ∧
  (∀ (k : Byte) (h : Header) (body : List Byte) (base scratch : Nat) (s : State),
    body.length < h.bodySize.toNat → badAreas base (12 + body.length) scratch = false →
    s.buf.holds base (wireBytes Config.params k h body) →
    ∃ u, readPart base (12 + body.length) scratch s = .next (.truncated, u))

/-- R178: decode of encode gives back key, header and payload with no CorruptData, from every state, for every key, tag,
count and payload of 1 to 65535 bytes. -/
def Obligations.FramingRoundTrip : Prop :=
  ∀ (k : Byte) (t : Tag) (n : BitVec 16) (payload : List Byte) (base scratch : Nat) (s : State),
    1 ≤ payload.length → payload.length ≤ 65535 → badAreas base (12 + payload.length) scratch = false →
    ∃ (c : Word) (u v : State), checksum32 Config.params payload = some c ∧
      writePart k t n payload base s = .next (.encoded, u) ∧
      readPart base (12 + payload.length) scratch u = .next (.part k (encodeHeader t n payload c) payload, v)
end

