-- ==== Sys2Proof/Laws/State.lean ====
section
/-! SUPPORT. One lemma a field for each update of State, true by rfl, so that no later proof unfolds a record update. -/

namespace Sys2Proof.Machine

/-! withCipher -/

@[simp] theorem State.withCipher_cipher (s : State) (c : CipherState) : (s.withCipher c).cipher = c := rfl
@[simp] theorem State.withCipher_checksum (s : State) (c : CipherState) : (s.withCipher c).checksum = s.checksum := rfl
@[simp] theorem State.withCipher_out (s : State) (c : CipherState) : (s.withCipher c).out = s.out := rfl
@[simp] theorem State.withCipher_src (s : State) (c : CipherState) : (s.withCipher c).src = s.src := rfl
@[simp] theorem State.withCipher_dst (s : State) (c : CipherState) : (s.withCipher c).dst = s.dst := rfl
@[simp] theorem State.withCipher_len (s : State) (c : CipherState) : (s.withCipher c).len = s.len := rfl
@[simp] theorem State.withCipher_err (s : State) (c : CipherState) : (s.withCipher c).err = s.err := rfl
@[simp] theorem State.withCipher_buf (s : State) (c : CipherState) : (s.withCipher c).buf = s.buf := rfl
@[simp] theorem State.withCipher_pending (s : State) (c : CipherState) : (s.withCipher c).pending = s.pending := rfl
@[simp] theorem State.withCipher_readLog (s : State) (c : CipherState) : (s.withCipher c).readLog = s.readLog := rfl
@[simp] theorem State.withCipher_self (s : State) : s.withCipher s.cipher = s := rfl
@[simp] theorem State.withCipher_withCipher (s : State) (c c' : CipherState) : (s.withCipher c).withCipher c' = s.withCipher c' := rfl

/-! withChecksum -/

@[simp] theorem State.withChecksum_cipher (s : State) (c : ChecksumState) : (s.withChecksum c).cipher = s.cipher := rfl
@[simp] theorem State.withChecksum_checksum (s : State) (c : ChecksumState) : (s.withChecksum c).checksum = c := rfl
@[simp] theorem State.withChecksum_out (s : State) (c : ChecksumState) : (s.withChecksum c).out = s.out := rfl
@[simp] theorem State.withChecksum_src (s : State) (c : ChecksumState) : (s.withChecksum c).src = s.src := rfl
@[simp] theorem State.withChecksum_dst (s : State) (c : ChecksumState) : (s.withChecksum c).dst = s.dst := rfl
@[simp] theorem State.withChecksum_len (s : State) (c : ChecksumState) : (s.withChecksum c).len = s.len := rfl
@[simp] theorem State.withChecksum_err (s : State) (c : ChecksumState) : (s.withChecksum c).err = s.err := rfl
@[simp] theorem State.withChecksum_buf (s : State) (c : ChecksumState) : (s.withChecksum c).buf = s.buf := rfl
@[simp] theorem State.withChecksum_pending (s : State) (c : ChecksumState) : (s.withChecksum c).pending = s.pending := rfl
@[simp] theorem State.withChecksum_readLog (s : State) (c : ChecksumState) : (s.withChecksum c).readLog = s.readLog := rfl
@[simp] theorem State.withChecksum_self (s : State) : s.withChecksum s.checksum = s := rfl
@[simp] theorem State.withChecksum_withChecksum (s : State) (c c' : ChecksumState) : (s.withChecksum c).withChecksum c' = s.withChecksum c' := rfl

/-! withOut -/

@[simp] theorem State.withOut_cipher (s : State) (b : Byte) : (s.withOut b).cipher = s.cipher := rfl
@[simp] theorem State.withOut_checksum (s : State) (b : Byte) : (s.withOut b).checksum = s.checksum := rfl
@[simp] theorem State.withOut_out (s : State) (b : Byte) : (s.withOut b).out = b := rfl
@[simp] theorem State.withOut_src (s : State) (b : Byte) : (s.withOut b).src = s.src := rfl
@[simp] theorem State.withOut_dst (s : State) (b : Byte) : (s.withOut b).dst = s.dst := rfl
@[simp] theorem State.withOut_len (s : State) (b : Byte) : (s.withOut b).len = s.len := rfl
@[simp] theorem State.withOut_err (s : State) (b : Byte) : (s.withOut b).err = s.err := rfl
@[simp] theorem State.withOut_buf (s : State) (b : Byte) : (s.withOut b).buf = s.buf := rfl
@[simp] theorem State.withOut_pending (s : State) (b : Byte) : (s.withOut b).pending = s.pending := rfl
@[simp] theorem State.withOut_readLog (s : State) (b : Byte) : (s.withOut b).readLog = s.readLog := rfl
@[simp] theorem State.withOut_self (s : State) : s.withOut s.out = s := rfl
@[simp] theorem State.withOut_withOut (s : State) (b b' : Byte) : (s.withOut b).withOut b' = s.withOut b' := rfl

/-! withSrc -/

@[simp] theorem State.withSrc_cipher (s : State) (a : BitVec 17) : (s.withSrc a).cipher = s.cipher := rfl
@[simp] theorem State.withSrc_checksum (s : State) (a : BitVec 17) : (s.withSrc a).checksum = s.checksum := rfl
@[simp] theorem State.withSrc_out (s : State) (a : BitVec 17) : (s.withSrc a).out = s.out := rfl
@[simp] theorem State.withSrc_src (s : State) (a : BitVec 17) : (s.withSrc a).src = a := rfl
@[simp] theorem State.withSrc_dst (s : State) (a : BitVec 17) : (s.withSrc a).dst = s.dst := rfl
@[simp] theorem State.withSrc_len (s : State) (a : BitVec 17) : (s.withSrc a).len = s.len := rfl
@[simp] theorem State.withSrc_err (s : State) (a : BitVec 17) : (s.withSrc a).err = s.err := rfl
@[simp] theorem State.withSrc_buf (s : State) (a : BitVec 17) : (s.withSrc a).buf = s.buf := rfl
@[simp] theorem State.withSrc_pending (s : State) (a : BitVec 17) : (s.withSrc a).pending = s.pending := rfl
@[simp] theorem State.withSrc_readLog (s : State) (a : BitVec 17) : (s.withSrc a).readLog = s.readLog := rfl
@[simp] theorem State.withSrc_self (s : State) : s.withSrc s.src = s := rfl
@[simp] theorem State.withSrc_withSrc (s : State) (a a' : BitVec 17) : (s.withSrc a).withSrc a' = s.withSrc a' := rfl

/-! withDst -/

@[simp] theorem State.withDst_cipher (s : State) (a : BitVec 17) : (s.withDst a).cipher = s.cipher := rfl
@[simp] theorem State.withDst_checksum (s : State) (a : BitVec 17) : (s.withDst a).checksum = s.checksum := rfl
@[simp] theorem State.withDst_out (s : State) (a : BitVec 17) : (s.withDst a).out = s.out := rfl
@[simp] theorem State.withDst_src (s : State) (a : BitVec 17) : (s.withDst a).src = s.src := rfl
@[simp] theorem State.withDst_dst (s : State) (a : BitVec 17) : (s.withDst a).dst = a := rfl
@[simp] theorem State.withDst_len (s : State) (a : BitVec 17) : (s.withDst a).len = s.len := rfl
@[simp] theorem State.withDst_err (s : State) (a : BitVec 17) : (s.withDst a).err = s.err := rfl
@[simp] theorem State.withDst_buf (s : State) (a : BitVec 17) : (s.withDst a).buf = s.buf := rfl
@[simp] theorem State.withDst_pending (s : State) (a : BitVec 17) : (s.withDst a).pending = s.pending := rfl
@[simp] theorem State.withDst_readLog (s : State) (a : BitVec 17) : (s.withDst a).readLog = s.readLog := rfl
@[simp] theorem State.withDst_self (s : State) : s.withDst s.dst = s := rfl
@[simp] theorem State.withDst_withDst (s : State) (a a' : BitVec 17) : (s.withDst a).withDst a' = s.withDst a' := rfl

/-! withLen -/

@[simp] theorem State.withLen_cipher (s : State) (n : BitVec 18) : (s.withLen n).cipher = s.cipher := rfl
@[simp] theorem State.withLen_checksum (s : State) (n : BitVec 18) : (s.withLen n).checksum = s.checksum := rfl
@[simp] theorem State.withLen_out (s : State) (n : BitVec 18) : (s.withLen n).out = s.out := rfl
@[simp] theorem State.withLen_src (s : State) (n : BitVec 18) : (s.withLen n).src = s.src := rfl
@[simp] theorem State.withLen_dst (s : State) (n : BitVec 18) : (s.withLen n).dst = s.dst := rfl
@[simp] theorem State.withLen_len (s : State) (n : BitVec 18) : (s.withLen n).len = n := rfl
@[simp] theorem State.withLen_err (s : State) (n : BitVec 18) : (s.withLen n).err = s.err := rfl
@[simp] theorem State.withLen_buf (s : State) (n : BitVec 18) : (s.withLen n).buf = s.buf := rfl
@[simp] theorem State.withLen_pending (s : State) (n : BitVec 18) : (s.withLen n).pending = s.pending := rfl
@[simp] theorem State.withLen_readLog (s : State) (n : BitVec 18) : (s.withLen n).readLog = s.readLog := rfl
@[simp] theorem State.withLen_self (s : State) : s.withLen s.len = s := rfl
@[simp] theorem State.withLen_withLen (s : State) (n n' : BitVec 18) : (s.withLen n).withLen n' = s.withLen n' := rfl

/-! withErr -/

@[simp] theorem State.withErr_cipher (s : State) (e : ErrorRecord) : (s.withErr e).cipher = s.cipher := rfl
@[simp] theorem State.withErr_checksum (s : State) (e : ErrorRecord) : (s.withErr e).checksum = s.checksum := rfl
@[simp] theorem State.withErr_out (s : State) (e : ErrorRecord) : (s.withErr e).out = s.out := rfl
@[simp] theorem State.withErr_src (s : State) (e : ErrorRecord) : (s.withErr e).src = s.src := rfl
@[simp] theorem State.withErr_dst (s : State) (e : ErrorRecord) : (s.withErr e).dst = s.dst := rfl
@[simp] theorem State.withErr_len (s : State) (e : ErrorRecord) : (s.withErr e).len = s.len := rfl
@[simp] theorem State.withErr_err (s : State) (e : ErrorRecord) : (s.withErr e).err = e := rfl
@[simp] theorem State.withErr_buf (s : State) (e : ErrorRecord) : (s.withErr e).buf = s.buf := rfl
@[simp] theorem State.withErr_pending (s : State) (e : ErrorRecord) : (s.withErr e).pending = s.pending := rfl
@[simp] theorem State.withErr_readLog (s : State) (e : ErrorRecord) : (s.withErr e).readLog = s.readLog := rfl
@[simp] theorem State.withErr_self (s : State) : s.withErr s.err = s := rfl
@[simp] theorem State.withErr_withErr (s : State) (e e' : ErrorRecord) : (s.withErr e).withErr e' = s.withErr e' := rfl

/-! withBuf -/

@[simp] theorem State.withBuf_cipher (s : State) (m : Memory) : (s.withBuf m).cipher = s.cipher := rfl
@[simp] theorem State.withBuf_checksum (s : State) (m : Memory) : (s.withBuf m).checksum = s.checksum := rfl
@[simp] theorem State.withBuf_out (s : State) (m : Memory) : (s.withBuf m).out = s.out := rfl
@[simp] theorem State.withBuf_src (s : State) (m : Memory) : (s.withBuf m).src = s.src := rfl
@[simp] theorem State.withBuf_dst (s : State) (m : Memory) : (s.withBuf m).dst = s.dst := rfl
@[simp] theorem State.withBuf_len (s : State) (m : Memory) : (s.withBuf m).len = s.len := rfl
@[simp] theorem State.withBuf_err (s : State) (m : Memory) : (s.withBuf m).err = s.err := rfl
@[simp] theorem State.withBuf_buf (s : State) (m : Memory) : (s.withBuf m).buf = m := rfl
@[simp] theorem State.withBuf_pending (s : State) (m : Memory) : (s.withBuf m).pending = s.pending := rfl
@[simp] theorem State.withBuf_readLog (s : State) (m : Memory) : (s.withBuf m).readLog = s.readLog := rfl
@[simp] theorem State.withBuf_self (s : State) : s.withBuf s.buf = s := rfl
@[simp] theorem State.withBuf_withBuf (s : State) (m m' : Memory) : (s.withBuf m).withBuf m' = s.withBuf m' := rfl

/-! withPending -/

@[simp] theorem State.withPending_cipher (s : State) (es : List Event) : (s.withPending es).cipher = s.cipher := rfl
@[simp] theorem State.withPending_checksum (s : State) (es : List Event) : (s.withPending es).checksum = s.checksum := rfl
@[simp] theorem State.withPending_out (s : State) (es : List Event) : (s.withPending es).out = s.out := rfl
@[simp] theorem State.withPending_src (s : State) (es : List Event) : (s.withPending es).src = s.src := rfl
@[simp] theorem State.withPending_dst (s : State) (es : List Event) : (s.withPending es).dst = s.dst := rfl
@[simp] theorem State.withPending_len (s : State) (es : List Event) : (s.withPending es).len = s.len := rfl
@[simp] theorem State.withPending_err (s : State) (es : List Event) : (s.withPending es).err = s.err := rfl
@[simp] theorem State.withPending_buf (s : State) (es : List Event) : (s.withPending es).buf = s.buf := rfl
@[simp] theorem State.withPending_pending (s : State) (es : List Event) : (s.withPending es).pending = es := rfl
@[simp] theorem State.withPending_readLog (s : State) (es : List Event) : (s.withPending es).readLog = s.readLog := rfl
@[simp] theorem State.withPending_self (s : State) : s.withPending s.pending = s := rfl
@[simp] theorem State.withPending_withPending (s : State) (es es' : List Event) : (s.withPending es).withPending es' = s.withPending es' := rfl

/-! withReadLog -/

@[simp] theorem State.withReadLog_cipher (s : State) (ws : List Word) : (s.withReadLog ws).cipher = s.cipher := rfl
@[simp] theorem State.withReadLog_checksum (s : State) (ws : List Word) : (s.withReadLog ws).checksum = s.checksum := rfl
@[simp] theorem State.withReadLog_out (s : State) (ws : List Word) : (s.withReadLog ws).out = s.out := rfl
@[simp] theorem State.withReadLog_src (s : State) (ws : List Word) : (s.withReadLog ws).src = s.src := rfl
@[simp] theorem State.withReadLog_dst (s : State) (ws : List Word) : (s.withReadLog ws).dst = s.dst := rfl
@[simp] theorem State.withReadLog_len (s : State) (ws : List Word) : (s.withReadLog ws).len = s.len := rfl
@[simp] theorem State.withReadLog_err (s : State) (ws : List Word) : (s.withReadLog ws).err = s.err := rfl
@[simp] theorem State.withReadLog_buf (s : State) (ws : List Word) : (s.withReadLog ws).buf = s.buf := rfl
@[simp] theorem State.withReadLog_pending (s : State) (ws : List Word) : (s.withReadLog ws).pending = s.pending := rfl
@[simp] theorem State.withReadLog_readLog (s : State) (ws : List Word) : (s.withReadLog ws).readLog = ws := rfl
@[simp] theorem State.withReadLog_self (s : State) : s.withReadLog s.readLog = s := rfl
@[simp] theorem State.withReadLog_withReadLog (s : State) (ws ws' : List Word) : (s.withReadLog ws).withReadLog ws' = s.withReadLog ws' := rfl

end Sys2Proof.Machine
end

