-- ==== Sys2Proof/Laws/Memory.lean ====
section
/-! SUPPORT. The laws of BUF: read after write, the canonical form kept, equal reads are equal memories, and what wide
and region accesses do (R13, R44, R53, R60). -/

namespace Sys2Proof.Machine

variable {m m' : Memory} {a b n : Nat} {v : Byte}

theorem Memory.read_cons (b : Nat) (w : Byte) (m : Memory) (a : Nat) :
    Memory.read ((b, w) :: m) a = if a = b then some w else Memory.read m a := rfl

@[simp] theorem Memory.read_write_same (m : Memory) (a : Nat) (v : Byte) : (m.write a v).read a = some v := by
  induction m with
  | nil => simp [Memory.write, Memory.read]
  | cons c m ih =>
    obtain ⟨b, w⟩ := c
    simp only [Memory.write]
    split
    · simp [Memory.read]
    · split
      · simp [Memory.read]
      · rename_i h; simp [Memory.read, h, ih]

theorem Memory.read_write_other (m : Memory) (v : Byte) (h : b ≠ a) : (m.write a v).read b = m.read b := by
  induction m with
  | nil => simp [Memory.write, Memory.read, h]
  | cons c m ih =>
    obtain ⟨d, w⟩ := c
    simp only [Memory.write]
    split
    · simp [Memory.read, h]
    · split
      · rename_i e; subst e; simp [Memory.read, h]
      · simp [Memory.read, ih]

theorem Memory.read_write (m : Memory) (a b : Nat) (v : Byte) :
    (m.write a v).read b = if b = a then some v else m.read b := by
  split
  · rename_i h; subst h; simp
  · rename_i h; exact Memory.read_write_other m v h

theorem Memory.mem_write {c : Host.Cell} (h : c ∈ m.write a v) : c = (a, v) ∨ c ∈ m := by
  induction m with
  | nil => simpa [Memory.write] using h
  | cons d m ih =>
    obtain ⟨b, w⟩ := d
    simp only [Memory.write] at h
    split at h
    · simpa using h
    · split at h
      · rcases List.mem_cons.1 h with h | h
        · exact .inl h
        · exact .inr (List.mem_cons_of_mem _ h)
      · rcases List.mem_cons.1 h with h | h
        · exact .inr (h ▸ List.mem_cons_self)
        · exact (ih h).imp id (List.mem_cons_of_mem _)

/-- A write keeps the addresses strictly rising. -/
theorem Memory.write_sorted (v : Byte) (h : m.Pairwise (fun c d => c.1 < d.1)) :
    (m.write a v).Pairwise (fun c d => c.1 < d.1) := by
  induction m with
  | nil => simp [Memory.write]
  | cons d m ih =>
    obtain ⟨b, w⟩ := d
    obtain ⟨hb, hm⟩ := List.pairwise_cons.1 h
    simp only [Memory.write]
    split
    · rename_i hab
      refine List.pairwise_cons.2 ⟨?_, h⟩
      intro c hc
      rcases List.mem_cons.1 hc with rfl | hc
      · exact hab
      · exact lt_trans hab (hb c hc)
    · split
      · rename_i e; subst e
        exact List.pairwise_cons.2 ⟨hb, hm⟩
      · refine List.pairwise_cons.2 ⟨?_, ih hm⟩
        intro c hc
        rcases Memory.mem_write hc with rfl | hc
        · simp only at *; omega
        · exact hb c hc

/-- A write inside BUF keeps the canonical form. -/
theorem Memory.write_wf (v : Byte) (h : m.wf) (ha : a < bufBytes) : (m.write a v).wf :=
  ⟨Memory.write_sorted v h.1, fun c hc => by
    rcases Memory.mem_write hc with rfl | hc
    · exact ha
    · exact h.2 c hc⟩

theorem Memory.nil_wf : Memory.wf [] := by simp [Memory.wf]

theorem Memory.memWrite_wf (h : m.wf) (hn : a + n ≤ bufBytes) (w : Word) : (m.memWrite a n w).wf := by
  induction n generalizing m a with
  | zero => exact h
  | succ n ih => exact ih (Memory.write_wf _ h (by omega)) (by omega)

/-- A listed byte lies inside BUF. -/
theorem Memory.read_lt (h : m.wf) (hr : m.read a = some v) : a < bufBytes := by
  have : ∃ w, (a, w) ∈ m := by
    clear h
    induction m with
    | nil => simp [Memory.read] at hr
    | cons c m ih =>
      obtain ⟨b, w⟩ := c
      rw [Memory.read_cons] at hr
      split at hr
      · rename_i e; subst e; exact ⟨w, List.mem_cons_self⟩
      · obtain ⟨w', hw⟩ := ih hr; exact ⟨w', List.mem_cons_of_mem _ hw⟩
  obtain ⟨w, hw⟩ := this
  exact h.2 _ hw

theorem Memory.read_eq_none_of_lt (h : ∀ c ∈ m, a < c.1) : m.read a = none := by
  induction m with
  | nil => rfl
  | cons c m ih =>
    have := h c List.mem_cons_self
    rw [show c = (c.1, c.2) from rfl, Memory.read_cons, if_neg (by omega)]
    exact ih fun d hd => h d (List.mem_cons_of_mem _ hd)

/-- Two canonical memories that read alike are the same list. -/
theorem Memory.ext_of_read (h : m.wf) (h' : m'.wf) (e : ∀ a, m.read a = m'.read a) : m = m' := by
  obtain ⟨h, -⟩ := h
  obtain ⟨h', -⟩ := h'
  induction m generalizing m' with
  | nil =>
    cases m' with
    | nil => rfl
    | cons c m' => have := e c.1; simp [Memory.read] at this
  | cons c m ih =>
    cases m' with
    | nil => have := e c.1; simp [Memory.read] at this
    | cons c' m' =>
      obtain ⟨b, w⟩ := c
      obtain ⟨b', w'⟩ := c'
      obtain ⟨hb, hm⟩ := List.pairwise_cons.1 h
      obtain ⟨hb', hm'⟩ := List.pairwise_cons.1 h'
      have hbb : b = b' := by
        rcases lt_trichotomy b b' with hl | hl | hl
        · have hn : Memory.read ((b', w') :: m') b = none :=
            Memory.read_eq_none_of_lt fun c hc => by
              rcases List.mem_cons.1 hc with rfl | hc
              · exact hl
              · exact lt_trans hl (hb' c hc)
          have := e b; rw [hn] at this; simp [Memory.read] at this
        · exact hl
        · have hn : Memory.read ((b, w) :: m) b' = none :=
            Memory.read_eq_none_of_lt fun c hc => by
              rcases List.mem_cons.1 hc with rfl | hc
              · exact hl
              · exact lt_trans hl (hb c hc)
          have := e b'; rw [hn] at this; simp [Memory.read] at this
      subst hbb
      have hw : w = w' := by simpa [Memory.read] using e b
      subst hw
      have hmm : m = m' := by
        refine ih (fun a => ?_) hm hm'
        by_cases hab : a = b
        · subst hab
          rw [Memory.read_eq_none_of_lt (fun c hc => hb c hc), Memory.read_eq_none_of_lt (fun c hc => hb' c hc)]
        · simpa [Memory.read, hab] using e a
      rw [hmm]

/-! Single bytes and regions. -/

@[simp] theorem Memory.readByte_eq_ok : m.readByte a = .ok v ↔ m.read a = some v := by
  unfold Memory.readByte; cases m.read a <;> simp

@[simp] theorem Memory.readByte_eq_error {f : Fault} :
    m.readByte a = .error f ↔ m.read a = none ∧ f = .uninitRead a := by
  unfold Memory.readByte; cases m.read a <;> simp [eq_comm]

theorem Memory.not_written : ¬ m.written a ↔ m.read a = none := by simp [Memory.written]

theorem Memory.written_iff : m.written a ↔ ∃ v, m.read a = some v := by
  simp [Memory.written, Option.isSome_iff_exists]

@[simp] theorem Memory.holds_nil (m : Memory) (a : Nat) : m.holds a [] := by simp [Memory.holds]

theorem Memory.holds_cons {bs : List Byte} : m.holds a (v :: bs) ↔ m.read a = some v ∧ m.holds (a + 1) bs := by
  constructor
  · intro h
    refine ⟨by simpa using h 0 (by simp), fun i hi => ?_⟩
    have := h (i + 1) (by simpa using hi)
    simpa [Nat.add_assoc, Nat.add_comm 1 i] using this
  · rintro ⟨h0, h⟩ i hi
    cases i with
    | zero => simpa using h0
    | succ i =>
      have := h i (by simpa using hi)
      simpa [Nat.add_assoc, Nat.add_comm 1 i] using this

theorem Memory.holds_append {bs cs : List Byte} :
    m.holds a (bs ++ cs) ↔ m.holds a bs ∧ m.holds (a + bs.length) cs := by
  induction bs generalizing a with
  | nil => simp
  | cons b bs ih =>
    rw [List.cons_append, Memory.holds_cons, Memory.holds_cons, ih, and_assoc, List.length_cons]
    rw [show a + 1 + bs.length = a + (bs.length + 1) by omega]

/-- The region reads as `bs` exactly if it holds them. -/
theorem Memory.readRegion_eq_ok {bs : List Byte} :
    m.readRegion a n = .ok bs ↔ bs.length = n ∧ m.holds a bs := by
  induction n generalizing a bs with
  | zero =>
    simp only [Memory.readRegion]
    constructor
    · intro h; cases h; simp
    · rintro ⟨h, -⟩; rw [List.length_eq_zero_iff.1 h]
  | succ n ih =>
    simp only [Memory.readRegion]
    constructor
    · intro h
      split at h
      · cases h
      · rename_i b hb
        split at h
        · cases h
        · rename_i cs hcs
          cases h
          obtain ⟨hl, hh⟩ := ih.1 hcs
          exact ⟨by simp [hl], Memory.holds_cons.2 ⟨Memory.readByte_eq_ok.1 hb, hh⟩⟩
    · rintro ⟨hl, hh⟩
      cases bs with
      | nil => simp at hl
      | cons b bs =>
        obtain ⟨h0, hh⟩ := Memory.holds_cons.1 hh
        rw [Memory.readByte_eq_ok.2 h0, ih.2 ⟨by simpa using hl, hh⟩]

/-- The region read stops exactly at its first unwritten byte (R62). -/
theorem Memory.readRegion_eq_error {f : Fault} : m.readRegion a n = .error f ↔
    ∃ i, i < n ∧ (∀ j, j < i → m.written (a + j)) ∧ ¬ m.written (a + i) ∧ f = .uninitRead (a + i) := by
  induction n generalizing a f with
  | zero => simp [Memory.readRegion]
  | succ n ih =>
    simp only [Memory.readRegion]
    constructor
    · intro h
      split at h
      · rename_i g hg
        cases h
        obtain ⟨hr, rfl⟩ := Memory.readByte_eq_error.1 hg
        exact ⟨0, by omega, by simp, by simpa [Memory.written] using hr, rfl⟩
      · rename_i b hb
        split at h
        · rename_i g hg
          cases h
          obtain ⟨i, hi, hw, hn, rfl⟩ := ih.1 hg
          refine ⟨i + 1, by omega, ?_, by rwa [Nat.add_assoc, Nat.add_comm 1 i] at hn, by
            rw [Nat.add_assoc, Nat.add_comm 1 i]⟩
          intro j hj
          cases j with
          | zero => simp [Memory.written, Memory.readByte_eq_ok.1 hb]
          | succ j =>
            have := hw j (by omega)
            rwa [Nat.add_assoc, Nat.add_comm 1 j] at this
        · cases h
    · rintro ⟨i, hi, hw, hn, rfl⟩
      cases i with
      | zero =>
        rw [Memory.readByte_eq_error.2 ⟨by simpa [Memory.written] using hn, rfl⟩]; rfl
      | succ i =>
        obtain ⟨b, hb⟩ := Memory.written_iff.1 (hw 0 (by omega))
        rw [Nat.add_zero] at hb
        rw [Memory.readByte_eq_ok.2 hb]
        have := (ih (a := a + 1) (f := .uninitRead (a + 1 + i))).2 ⟨i, by omega, fun j hj => ?_, ?_, rfl⟩
        · rw [this, Nat.add_assoc, Nat.add_comm 1 i]
        · have := hw (j + 1) (by omega)
          rwa [← Nat.add_assoc, Nat.add_right_comm] at this
        · rwa [← Nat.add_assoc, Nat.add_right_comm] at hn

/-- A region all of whose bytes are written holds some byte sequence of its length. -/
theorem Memory.exists_holds (h : ∀ i, i < n → m.written (a + i)) : ∃ bs : List Byte, bs.length = n ∧ m.holds a bs := by
  cases hr : m.readRegion a n with
  | ok bs => exact ⟨bs, Memory.readRegion_eq_ok.1 hr⟩
  | error f =>
    obtain ⟨i, hi, -, hn, -⟩ := Memory.readRegion_eq_error.1 hr
    exact absurd (h i hi) hn

theorem Memory.holds_congr {bs : List Byte} (h : m.holds a bs)
    (e : ∀ b, a ≤ b → b < a + bs.length → m'.read b = m.read b) : m'.holds a bs := by
  intro i hi
  rw [e _ (by omega) (by omega)]
  exact h i hi

/-! Wide accesses (R52, R53). -/

/-- A wide write touches its own bytes only. -/
theorem Memory.memWrite_read_other (w : Word) (h : b < a ∨ a + n ≤ b) :
    (m.memWrite a n w).read b = m.read b := by
  induction n generalizing m a with
  | zero => rfl
  | succ n ih =>
    rw [Memory.memWrite, ih (by omega), Memory.read_write_other _ _ (by omega)]

/-- A wide write stores the most significant of its bytes at the lowest address (R53). -/
theorem Memory.memWrite_read (m : Memory) (a n : Nat) (w : Word) {j : Nat} (h : j < n) :
    (m.memWrite a n w).read (a + j) = some ((w >>> (8 * (n - 1 - j))).setWidth 8) := by
  induction n generalizing m a j with
  | zero => omega
  | succ n ih =>
    cases j with
    | zero =>
      show Memory.read _ a = _
      rw [Memory.memWrite, Memory.memWrite_read_other _ (by omega), Memory.read_write_same]
      rfl
    | succ j =>
      rw [Memory.memWrite, show a + (j + 1) = a + 1 + j by omega, ih _ _ (by omega)]
      congr 4; omega

/-- A wide read of written bytes joins them in order (R53). -/
theorem Memory.readOnto_holds {bs : List Byte} (h : m.holds a bs) (got : Word) :
    m.readOnto a bs.length got = .ok (bs.foldl (fun x b => (x <<< 8) ||| b.setWidth 32) got) := by
  induction bs generalizing a got with
  | nil => rfl
  | cons b bs ih =>
    obtain ⟨h0, h⟩ := Memory.holds_cons.1 h
    rw [List.length_cons, Memory.readOnto, Memory.readByte_eq_ok.2 h0]
    exact ih h _

/-- A wide read stops at its first unwritten byte (R44). -/
theorem Memory.readOnto_unwritten {i : Nat} (hi : i < n) (hw : ∀ j, j < i → m.written (a + j))
    (hn : ¬ m.written (a + i)) (got : Word) : m.readOnto a n got = .error (.uninitRead (a + i)) := by
  induction n generalizing a i got with
  | zero => omega
  | succ n ih =>
    cases i with
    | zero =>
      rw [Memory.readOnto, Memory.readByte_eq_error.2 ⟨by simpa [Memory.written] using hn, rfl⟩]; rfl
    | succ i =>
      obtain ⟨b, hb⟩ := Memory.written_iff.1 (hw 0 (by omega))
      rw [Nat.add_zero] at hb
      rw [Memory.readOnto, Memory.readByte_eq_ok.2 hb]
      have := ih (a := a + 1) (i := i) (by omega) (fun j hj => by
        have := hw (j + 1) (by omega); rwa [← Nat.add_assoc, Nat.add_right_comm] at this)
        (by rwa [← Nat.add_assoc, Nat.add_right_comm] at hn) ((got <<< 8) ||| b.setWidth 32)
      simp only [this]
      congr 2; omega

end Sys2Proof.Machine
end

