-- ==== Sys2Proof/Laws/Checksum.lean ====
section
/-! SUPPORT. The laws of the checksum state: lanes, indices and the per-byte step (R27 to R30, R106). -/

namespace Sys2Proof.Machine

/-! Lanes (R30). -/

@[simp] theorem Lanes.get_set (l : Lanes) (i j : BitVec 2) (b : Byte) :
    (l.set i b).get j = if j = i then b else l.get j := by
  revert i j
  simp only [Lanes.get, Lanes.set]
  intro i j
  have hi : i = 0 ∨ i = 1 ∨ i = 2 ∨ i = 3 := by revert i; decide
  have hj : j = 0 ∨ j = 1 ∨ j = 2 ∨ j = 3 := by revert j; decide
  rcases hi with rfl | rfl | rfl | rfl <;> rcases hj with rfl | rfl | rfl | rfl <;> rfl

/-- A byte is added to its own lane only (R30). -/
theorem Lanes.get_addTo (l : Lanes) (i j : BitVec 2) (b : Byte) :
    (l.addTo i b).get j = if j = i then l.get j + b else l.get j := by
  rw [Lanes.addTo, Lanes.get_set]
  split
  · rename_i h; rw [h]
  · rfl

@[simp] theorem Lanes.get_zero (j : BitVec 2) : Lanes.zero.get j = 0 := by
  simp [Lanes.get, Lanes.zero]

/-- Lanes that agree at every index are the same. -/
theorem Lanes.ext_get {l l' : Lanes} (h : ∀ j, l.get j = l'.get j) : l = l' := by
  obtain ⟨a, b, c, d⟩ := l
  obtain ⟨a', b', c', d'⟩ := l'
  have h0 := h 0; have h1 := h 1; have h2 := h 2; have h3 := h 3
  simp only [Lanes.get] at h0 h1 h2 h3
  simp at h0 h1 h2 h3
  subst h0 h1 h2 h3; rfl

/-! Indices (R10, R14, R118). -/

/-- The index after `i + 1` increments (R118). -/
theorem idxInc_iterate (mode : IdxMode) (t i : Nat) : (idxInc mode)^[i + 1] t = idxAt mode t i := by
  induction i with
  | zero => cases mode <;> rfl
  | succ i ih =>
    rw [Function.iterate_succ_apply', ih]
    cases mode <;> simp only [idxInc, idxAt] <;> omega

theorem idxInc_fits (mode : IdxMode) (t : Nat) : idxFits mode (idxInc mode t) := by
  cases mode
  · exact Nat.mod_lt _ (by decide)
  · trivial

theorem idxFits_of_lt (mode : IdxMode) {t : Nat} (h : t < 256) : idxFits mode t := by
  cases mode
  · exact h
  · trivial

/-! The per-byte step (R106). -/

variable (p : Params) (c : ChecksumState) (b : Byte) (bs : List Byte)

@[simp] theorem ChecksumState.feed_t0i : (c.feed p b).t0i = idxInc p.idxMode c.t0i := rfl
@[simp] theorem ChecksumState.feed_t1i : (c.feed p b).t1i = idxInc p.idxMode c.t1i := rfl
@[simp] theorem ChecksumState.feed_spos : (c.feed p b).spos = c.spos + 1 := rfl
@[simp] theorem ChecksumState.feed_sinit : (c.feed p b).sinit = c.sinit := rfl
@[simp] theorem ChecksumState.feed_acc : (c.feed p b).acc =
    c.acc.addTo c.spos (mix p (idxInc p.idxMode c.t0i) (idxInc p.idxMode c.t1i) b) := rfl

@[simp] theorem ChecksumState.start_sinit (t0 t1 : Nat) : (ChecksumState.start t0 t1).sinit = true := rfl
@[simp] theorem ChecksumState.start_t0i (t0 t1 : Nat) : (ChecksumState.start t0 t1).t0i = t0 := rfl
@[simp] theorem ChecksumState.start_t1i (t0 t1 : Nat) : (ChecksumState.start t0 t1).t1i = t1 := rfl
@[simp] theorem ChecksumState.start_spos (t0 t1 : Nat) : (ChecksumState.start t0 t1).spos = 0 := rfl
@[simp] theorem ChecksumState.start_acc (t0 t1 : Nat) : (ChecksumState.start t0 t1).acc = Lanes.zero := rfl

@[simp] theorem ChecksumState.feedAll_nil : c.feedAll p [] = c := rfl
@[simp] theorem ChecksumState.feedAll_cons : c.feedAll p (b :: bs) = (c.feed p b).feedAll p bs := rfl

theorem ChecksumState.feedAll_append (cs : List Byte) :
    c.feedAll p (bs ++ cs) = (c.feedAll p bs).feedAll p cs := List.foldl_append ..

theorem ChecksumState.feedAll_sinit : (c.feedAll p bs).sinit = c.sinit := by
  induction bs generalizing c with
  | nil => rfl
  | cons b bs ih => rw [ChecksumState.feedAll_cons, ih, ChecksumState.feed_sinit]

theorem ChecksumState.feedAll_t0i : (c.feedAll p bs).t0i = (idxInc p.idxMode)^[bs.length] c.t0i := by
  induction bs generalizing c with
  | nil => rfl
  | cons b bs ih => rw [ChecksumState.feedAll_cons, ih]; rfl

theorem ChecksumState.feedAll_t1i : (c.feedAll p bs).t1i = (idxInc p.idxMode)^[bs.length] c.t1i := by
  induction bs generalizing c with
  | nil => rfl
  | cons b bs ih => rw [ChecksumState.feedAll_cons, ih]; rfl

theorem ChecksumState.feedAll_spos : (c.feedAll p bs).spos = c.spos + BitVec.ofNat 2 bs.length := by
  induction bs generalizing c with
  | nil => simp
  | cons b bs ih =>
    rw [ChecksumState.feedAll_cons, ih, ChecksumState.feed_spos, List.length_cons]
    apply BitVec.eq_of_toNat_eq
    simp only [BitVec.toNat_add, BitVec.toNat_ofNat, show BitVec.toNat (1 : BitVec 2) = 1 from rfl]
    omega

/-- Feeding keeps indices of the mode's width (R27). -/
theorem ChecksumState.feedAll_fits (h0 : idxFits p.idxMode c.t0i) (h1 : idxFits p.idxMode c.t1i) :
    idxFits p.idxMode (c.feedAll p bs).t0i ∧ idxFits p.idxMode (c.feedAll p bs).t1i := by
  induction bs generalizing c with
  | nil => exact ⟨h0, h1⟩
  | cons b bs ih => exact ih _ (idxInc_fits _ _) (idxInc_fits _ _)

end Sys2Proof.Machine
end

