-- ==== Sys2Proof/Laws/Cipher.lean ====
section
/-! SUPPORT. The laws of the cipher state and of the region loop of R133: where the keystream stands, what the loop
writes, when it completes and where it stops (R61, R62, R144). -/

namespace Sys2Proof.Machine

/-! The keystream position (R25, R143, R144). -/

theorem ktAt_mod (p : Params) (j : Nat) : ktAt p (j % 8) = ktAt p j := by simp [ktAt]

theorem CipherState.start_eq (k : Byte) : CipherState.start k = CipherState.atPosition k 0 := rfl

theorem CipherState.advance_atPosition (k : Byte) (j : Nat) :
    (CipherState.atPosition k j).advance = CipherState.atPosition k (j + 1) := by
  simp only [CipherState.advance, CipherState.atPosition, Function.iterate_succ_apply']
  congr 1
  apply BitVec.eq_of_toNat_eq
  simp [BitVec.toNat_add]

theorem CipherState.advance_iterate_atPosition (k : Byte) (j n : Nat) :
    CipherState.advance^[n] (CipherState.atPosition k j) = CipherState.atPosition k (j + n) := by
  induction n with
  | zero => rfl
  | succ n ih => rw [Function.iterate_succ_apply', ih, CipherState.advance_atPosition, Nat.add_assoc]

theorem CipherState.mask_atPosition (p : Params) (k : Byte) (j : Nat) :
    (CipherState.atPosition k j).mask p = maskAt p k j := by
  simp only [CipherState.mask, CipherState.atPosition, maskAt, BitVec.toNat_ofNat]
  rw [show 2 ^ 3 = 8 from rfl, ktAt_mod]

@[simp] theorem CipherState.advance_seeded (c : CipherState) : c.advance.seeded = c.seeded := rfl

theorem CipherState.advance_iterate_seeded (c : CipherState) (n : Nat) :
    (CipherState.advance^[n] c).seeded = c.seeded := by
  induction n with
  | zero => rfl
  | succ n ih => rw [Function.iterate_succ_apply', CipherState.advance_seeded, ih]

/-! The region loop (R133). -/

variable {p : Params} {n src dst : Nat} {c c' : CipherState} {m m' : Memory}

/-- The loop leaves the keystream `n` bytes on, and writes nothing outside its destination. -/
theorem cipherRegion_spec (h : cipherRegion p n src dst c m = .ok (c', m')) :
    c' = CipherState.advance^[n] c ∧ ∀ a, a < dst ∨ dst + n ≤ a → m'.read a = m.read a := by
  induction n generalizing src dst c m with
  | zero => cases h; exact ⟨rfl, fun _ _ => rfl⟩
  | succ n ih =>
    rw [cipherRegion] at h
    split at h
    · cases h
    · obtain ⟨hc, hm⟩ := ih h
      refine ⟨hc, fun a ha => ?_⟩
      rw [hm a (by omega), Memory.read_write_other _ _ (by omega)]

/-- The loop keeps the canonical form. -/
theorem cipherRegion_wf (h : cipherRegion p n src dst c m = .ok (c', m')) (hw : m.wf) (hd : dst + n ≤ bufBytes) :
    m'.wf := by
  induction n generalizing src dst c m with
  | zero => cases h; exact hw
  | succ n ih =>
    rw [cipherRegion] at h
    split at h
    · cases h
    · exact ih h (Memory.write_wf _ hw (by omega)) (by omega)

/-- The loop completes when each source byte is written before it or by an earlier byte of it (R61, R62). -/
theorem cipherRegion_completes (h : ∀ i, i < n → m.written (src + i) ∨ src < dst ∧ dst ≤ src + i) :
    ∃ c' m', cipherRegion p n src dst c m = .ok (c', m') := by
  induction n generalizing src dst c m with
  | zero => exact ⟨_, _, rfl⟩
  | succ n ih =>
    obtain ⟨b, hb⟩ := Memory.written_iff.1 ((h 0 (by omega)).resolve_right (by omega))
    rw [Nat.add_zero] at hb
    rw [cipherRegion, Memory.readByte_eq_ok.2 hb]
    apply ih
    intro i hi
    by_cases e : src + 1 + i = dst
    · exact .inl (by rw [Memory.written, e, Memory.read_write_same]; rfl)
    · rcases h (i + 1) (by omega) with hw | hw
      · left
        rw [Memory.written, Memory.read_write_other _ _ e]
        rwa [show src + 1 + i = src + (i + 1) by omega]
      · right; omega

/-- The loop stops at the first source byte that is unwritten when it is read (R62). -/
theorem cipherRegion_faults {i : Nat} (hi : i < n)
    (hw : ∀ j, j < i → m.written (src + j) ∨ src < dst ∧ dst ≤ src + j)
    (hn : ¬ (m.written (src + i) ∨ src < dst ∧ dst ≤ src + i)) :
    cipherRegion p n src dst c m = .error (.uninitRead (src + i)) := by
  induction n generalizing src dst c m i with
  | zero => omega
  | succ n ih =>
    rw [not_or] at hn
    cases i with
    | zero =>
      rw [cipherRegion, Memory.readByte_eq_error.2 ⟨by simpa [Memory.written] using hn.1, rfl⟩]; rfl
    | succ i =>
      obtain ⟨b, hb⟩ := Memory.written_iff.1 ((hw 0 (by omega)).resolve_right (by omega))
      rw [Nat.add_zero] at hb
      rw [cipherRegion, Memory.readByte_eq_ok.2 hb]
      have := ih (src := src + 1) (dst := dst + 1) (i := i) (c := c.advance) (m := m.write dst (b ^^^ c.mask p))
        (by omega) (fun j hj => ?_) ?_
      · simp only [this]; congr 2; omega
      · by_cases e : src + 1 + j = dst
        · exact .inl (by rw [Memory.written, e, Memory.read_write_same]; rfl)
        · rcases hw (j + 1) (by omega) with hw | hw
          · left
            rw [Memory.written, Memory.read_write_other _ _ e]
            rwa [show src + 1 + j = src + (j + 1) by omega]
          · right; omega
      · rw [not_or]
        constructor
        · rw [Memory.written, Memory.read_write_other _ _ (by omega)]
          rw [show src + 1 + i = src + (i + 1) by omega]; exact hn.1
        · omega

/-- Between regions that do not overlap, or in place, destination byte `i` is source byte `i` XORed with the mask of the
`i`-th keystream position (R144, R243). -/
theorem cipherRegion_sound {d : List Byte} (hd : d.length = n) (hm : m.holds src d)
    (hs : src = dst ∨ src + n ≤ dst ∨ dst + n ≤ src) :
    ∃ m', cipherRegion p n src dst c m = .ok (CipherState.advance^[n] c, m') ∧
      (∀ i b, d[i]? = some b → m'.read (dst + i) = some (b ^^^ (CipherState.advance^[i] c).mask p)) ∧
      ∀ a, a < dst ∨ dst + n ≤ a → m'.read a = m.read a := by
  induction d generalizing n src dst c m with
  | nil =>
    subst hd
    exact ⟨m, rfl, by simp, fun _ _ => rfl⟩
  | cons b d ih =>
    subst hd
    rw [List.length_cons] at hs ⊢
    obtain ⟨h0, hm⟩ := Memory.holds_cons.1 hm
    have hm1 : (m.write dst (b ^^^ c.mask p)).holds (src + 1) d :=
      Memory.holds_congr hm fun a _ _ => Memory.read_write_other _ _ (by omega)
    obtain ⟨m', h, hr, ho⟩ := ih (dst := dst + 1) (c := c.advance) rfl hm1 (by omega)
    refine ⟨m', ?_, ?_, ?_⟩
    · rw [cipherRegion, Memory.readByte_eq_ok.2 h0, Function.iterate_succ_apply]; exact h
    · intro i x hx
      cases i with
      | zero =>
        cases hx
        rw [Nat.add_zero, ho _ (by omega), Memory.read_write_same]; rfl
      | succ i =>
        have := hr i x (by simpa using hx)
        rwa [show dst + 1 + i = dst + (i + 1) by omega] at this
    · intro a ha
      rw [ho a (by omega), Memory.read_write_other _ _ (by omega)]

/-- A completed loop as the sequence of cipher states and memories it goes through (R61, R133). -/
theorem cipherRegion_trace (h : ∀ i, i < n → m.written (src + i) ∨ src < dst ∧ dst ≤ src + i) :
    ∃ (cs : Nat → CipherState) (ms : Nat → Memory), cs 0 = c ∧ ms 0 = m ∧
      (∀ i, i < n → cs (i + 1) = (cs i).advance ∧
        ∃ b, (ms i).read (src + i) = some b ∧ (ms (i + 1)).read (dst + i) = some (b ^^^ (cs i).mask p) ∧
          ∀ a, a ≠ dst + i → (ms (i + 1)).read a = (ms i).read a) ∧
      cipherRegion p n src dst c m = .ok (cs n, ms n) := by
  induction n generalizing src dst c m with
  | zero => exact ⟨fun _ => c, fun _ => m, rfl, rfl, by simp, rfl⟩
  | succ n ih =>
    obtain ⟨b, hb⟩ := Memory.written_iff.1 ((h 0 (by omega)).resolve_right (by omega))
    rw [Nat.add_zero] at hb
    obtain ⟨cs, ms, h0, h0', hs, hr⟩ := ih (src := src + 1) (dst := dst + 1) (c := c.advance)
      (m := m.write dst (b ^^^ c.mask p)) (by
        intro i hi
        by_cases e : src + 1 + i = dst
        · exact .inl (by rw [Memory.written, e, Memory.read_write_same]; rfl)
        · rcases h (i + 1) (by omega) with hw | hw
          · left
            rw [Memory.written, Memory.read_write_other _ _ e]
            rwa [show src + 1 + i = src + (i + 1) by omega]
          · right; omega)
    refine ⟨fun | 0 => c | i + 1 => cs i, fun | 0 => m | i + 1 => ms i, rfl, rfl, ?_, ?_⟩
    · intro i hi
      cases i with
      | zero =>
        refine ⟨h0, b, hb, ?_, fun a ha => ?_⟩
        · show Memory.read (ms 0) (dst + 0) = _
          rw [h0', Nat.add_zero, Memory.read_write_same]
        · show Memory.read (ms 0) a = _
          rw [h0', Memory.read_write_other _ _ (by omega)]
      | succ i =>
        obtain ⟨q1, x, q2, q3, q4⟩ := hs i (by omega)
        refine ⟨q1, x, ?_, ?_, fun a ha => q4 a (by omega)⟩
        · show Memory.read (ms i) _ = _
          rw [← q2]; congr 1; omega
        · show Memory.read (ms (i + 1)) _ = _
          rw [show dst + (i + 1) = dst + 1 + i by omega]; exact q3
    · rw [cipherRegion, Memory.readByte_eq_ok.2 hb]; exact hr

/-- The loop's only fault is an unwritten source byte (R62). -/
theorem cipherRegion_error {f : Fault} (h : cipherRegion p n src dst c m = .error f) : ∃ a, f = .uninitRead a := by
  induction n generalizing src dst c m with
  | zero => cases h
  | succ n ih =>
    rw [cipherRegion] at h
    split at h
    · rename_i hr
      cases h
      exact ⟨src, (Memory.readByte_eq_error.1 hr).2⟩
    · exact ih h

end Sys2Proof.Machine
end

