-- ==== Sys2Proof/Laws/Exec.lean ====
section
/-! SUPPORT. What each command can do, said once (40_checksum.md, 41_cipher.md, 42_control.md, 60_exceptions.md): a
raised error, the operands of a region command, and for each meaning the next states it can answer. -/

namespace Sys2Proof.Machine

/-! Raising an error (R202, R203). -/

theorem State.withErr_record (s : State) (e : ErrCode) : s.withErr (s.err.record e) = s.recorded e := rfl

@[simp] theorem raiseError_eq (e : ErrCode) (s : State) : raiseError e s = .next (s.recorded e) := by
  rw [raiseError, State.withErr_record]

@[simp] theorem State.recorded_cipher (s : State) (e : ErrCode) : (s.recorded e).cipher = s.cipher := rfl
@[simp] theorem State.recorded_checksum (s : State) (e : ErrCode) : (s.recorded e).checksum = s.checksum := rfl
@[simp] theorem State.recorded_out (s : State) (e : ErrCode) : (s.recorded e).out = s.out := rfl
@[simp] theorem State.recorded_src (s : State) (e : ErrCode) : (s.recorded e).src = s.src := rfl
@[simp] theorem State.recorded_dst (s : State) (e : ErrCode) : (s.recorded e).dst = s.dst := rfl
@[simp] theorem State.recorded_len (s : State) (e : ErrCode) : (s.recorded e).len = s.len := rfl
@[simp] theorem State.recorded_buf (s : State) (e : ErrCode) : (s.recorded e).buf = s.buf := rfl
@[simp] theorem State.recorded_pending (s : State) (e : ErrCode) : (s.recorded e).pending = s.pending := rfl
@[simp] theorem State.recorded_readLog (s : State) (e : ErrCode) : (s.recorded e).readLog = s.readLog := rfl

theorem State.recorded_err (s : State) (e : ErrCode) :
    (s.recorded e).err = if s.err.errv = true then s.err else { errv := true, errc := e.code } := rfl

/-- A raised error leaves a legal record (R200, R203). -/
theorem State.recorded_legal (s : State) (e : ErrCode) (h : s.err.legal) : (s.recorded e).err.legal := by
  rw [State.recorded_err]
  split
  · exact h
  · cases e <;> simp [ErrorRecord.legal, ErrCode.code]

/-! Operands (R60). -/

theorem State.regionLen_eq_zero (s : State) : s.regionLen = 0 ↔ s.len = 0 := by
  rw [State.regionLen, ← BitVec.toNat_inj]; rfl

theorem State.srcLeaves_iff (s : State) : s.srcLeaves = true ↔ bufBytes < s.src.toNat + s.len.toNat :=
  decide_eq_true_iff

theorem State.dstLeaves_iff (s : State) : s.dstLeaves = true ↔ bufBytes < s.dst.toNat + s.len.toNat :=
  decide_eq_true_iff

theorem State.sourceBytes_eq_ok {s : State} {bs : List Byte} :
    s.sourceBytes = .ok bs ↔ bs.length = s.len.toNat ∧ s.buf.holds s.src.toNat bs := Memory.readRegion_eq_ok

theorem State.initialChecksum_eq_ok {s : State} {c : ChecksumState} : s.initialChecksum = .ok c ↔
    ∃ m, s.buf.read (s.src.toNat + s.len.toNat / 2) = some m ∧
      c = ChecksumState.start (s.len.toNat % 256) m.toNat := by
  simp only [State.initialChecksum, State.middleAddr, State.srcAddr, State.regionLen]
  unfold Memory.readByte
  cases s.buf.read (s.src.toNat + s.len.toNat / 2) <;> simp [eq_comm]

theorem State.initialChecksum_eq_error {s : State} {f : Fault} : s.initialChecksum = .error f ↔
    s.buf.read (s.src.toNat + s.len.toNat / 2) = none ∧ f = .uninitRead (s.src.toNat + s.len.toNat / 2) := by
  simp only [State.initialChecksum, State.middleAddr, State.srcAddr, State.regionLen]
  unfold Memory.readByte
  cases s.buf.read (s.src.toNat + s.len.toNat / 2) <;> simp [eq_comm]

theorem State.sourceBytes_eq_error {s : State} {f : Fault} : s.sourceBytes = .error f ↔
    ∃ i, i < s.len.toNat ∧ (∀ j, j < i → s.buf.written (s.src.toNat + j)) ∧ ¬ s.buf.written (s.src.toNat + i) ∧
      f = .uninitRead (s.src.toNat + i) := Memory.readRegion_eq_error

/-! The operands do not depend on the engine state, the error record or the host's fields (R60). -/

@[simp] theorem State.withErr_sourceBytes (s : State) (x : ErrorRecord) : (s.withErr x).sourceBytes = s.sourceBytes := rfl
@[simp] theorem State.withErr_initialChecksum (s : State) (x : ErrorRecord) :
    (s.withErr x).initialChecksum = s.initialChecksum := rfl
@[simp] theorem State.withCipher_sourceBytes (s : State) (x : CipherState) : (s.withCipher x).sourceBytes = s.sourceBytes := rfl
@[simp] theorem State.withCipher_initialChecksum (s : State) (x : CipherState) :
    (s.withCipher x).initialChecksum = s.initialChecksum := rfl
@[simp] theorem State.withChecksum_sourceBytes (s : State) (x : ChecksumState) : (s.withChecksum x).sourceBytes = s.sourceBytes := rfl
@[simp] theorem State.withChecksum_initialChecksum (s : State) (x : ChecksumState) :
    (s.withChecksum x).initialChecksum = s.initialChecksum := rfl
@[simp] theorem State.withPending_sourceBytes (s : State) (x : List Event) : (s.withPending x).sourceBytes = s.sourceBytes := rfl
@[simp] theorem State.withPending_initialChecksum (s : State) (x : List Event) :
    (s.withPending x).initialChecksum = s.initialChecksum := rfl
@[simp] theorem State.withReadLog_sourceBytes (s : State) (x : List Word) : (s.withReadLog x).sourceBytes = s.sourceBytes := rfl
@[simp] theorem State.withReadLog_initialChecksum (s : State) (x : List Word) :
    (s.withReadLog x).initialChecksum = s.initialChecksum := rfl

/-! The next states of each meaning. -/

variable {p : Params} {s t : State}

/-- SINIT records an error, or replaces the checksum state by an initialised one (R100, R101). -/
theorem execSinit_next (h : execSinit s = .next t) :
    (∃ e, t = s.recorded e) ∨ ∃ c, s.initialChecksum = .ok c ∧ t = s.withChecksum c := by
  unfold execSinit at h
  split at h
  · exact .inl ⟨_, by simpa using h.symm⟩
  · split at h
    · exact .inl ⟨_, by simpa using h.symm⟩
    · split at h
      · cases h
      · rename_i c hc
        exact .inr ⟨c, hc, by simpa using h.symm⟩

/-- SFEED records an error, or feeds the source bytes to an initialised checksum (R106, R107). -/
theorem sfeedWith_next (h : sfeedWith p s = .next t) :
    (∃ e, t = s.recorded e) ∨
      ∃ bs, s.checksum.sinit = true ∧ s.sourceBytes = .ok bs ∧ t = s.withChecksum (s.checksum.feedAll p bs) := by
  unfold sfeedWith at h
  split at h
  · exact .inl ⟨_, by simpa using h.symm⟩
  · rename_i hs
    split at h
    · exact .inl ⟨_, by simpa using h.symm⟩
    · split at h
      · cases h
      · rename_i bs hbs
        exact .inr ⟨bs, by simpa using hs, hbs, by simpa using h.symm⟩

/-- SBYTE records an error, or feeds one byte to an initialised checksum (R109, R110). -/
theorem sbyteWith_next {d : Byte} (h : sbyteWith p d s = .next t) :
    (∃ e, t = s.recorded e) ∨ (s.checksum.sinit = true ∧ t = s.withChecksum (s.checksum.feed p d)) := by
  unfold sbyteWith at h
  split at h
  · exact .inl ⟨_, by simpa using h.symm⟩
  · rename_i hs
    exact .inr ⟨by simpa using hs, by simpa using h.symm⟩

/-- SUM32 records an error, or initialises and feeds the source bytes (R112, R113). -/
theorem sum32With_next (h : sum32With p s = .next t) :
    (∃ e, t = s.recorded e) ∨
      ∃ c bs, s.initialChecksum = .ok c ∧ s.sourceBytes = .ok bs ∧ t = s.withChecksum (c.feedAll p bs) := by
  unfold sum32With at h
  split at h
  · exact .inl ⟨_, by simpa using h.symm⟩
  · split at h
    · exact .inl ⟨_, by simpa using h.symm⟩
    · split at h
      · cases h
      · rename_i c hc
        split at h
        · cases h
        · rename_i bs hbs
          exact .inr ⟨c, bs, hc, hbs, by simpa using h.symm⟩

/-- The region loop replaces the cipher state and BUF (R133). -/
theorem runKeystream_next {c : CipherState} (h : runKeystream p c s = .next t) :
    ∃ c' m, cipherRegion p s.len.toNat s.src.toNat s.dst.toNat c s.buf = .ok (c', m) ∧
      t = (s.withCipher c').withBuf m := by
  unfold runKeystream at h
  split at h
  · cases h
  · rename_i c' m hr
    exact ⟨c', m, hr, by simpa using h.symm⟩

/-- CXOR records an error, or runs the loop from a seeded keystream inside BUF (R133, R134). -/
theorem cxorWith_next (h : cxorWith p s = .next t) :
    (∃ e, t = s.recorded e) ∨
      (s.cipher.seeded = true ∧ s.dst.toNat + s.len.toNat ≤ bufBytes ∧ runKeystream p s.cipher s = .next t) := by
  unfold cxorWith at h
  split at h
  · exact .inl ⟨_, by simpa using h.symm⟩
  · rename_i hs
    split at h
    · exact .inl ⟨_, by simpa using h.symm⟩
    · rename_i hr
      rw [Bool.or_eq_true, not_or, State.dstLeaves_iff] at hr
      exact .inr ⟨by simpa using hs, Nat.le_of_not_lt hr.2, h⟩

/-- CBYTE records an error, or writes OUT and advances a seeded keystream (R136, R137). -/
theorem cbyteWith_next {d : Byte} (h : cbyteWith p d s = .next t) :
    (∃ e, t = s.recorded e) ∨
      (s.cipher.seeded = true ∧ t = (s.withOut (d ^^^ s.cipher.mask p)).withCipher s.cipher.advance) := by
  unfold cbyteWith at h
  split at h
  · exact .inl ⟨_, by simpa using h.symm⟩
  · rename_i hs
    exact .inr ⟨by simpa using hs, by simpa using h.symm⟩

/-- CAPPLY records an error, or runs the loop from a fresh seed inside BUF (R139, R140). -/
theorem capplyWith_next {k : Byte} (h : capplyWith p k s = .next t) :
    (∃ e, t = s.recorded e) ∨
      (s.dst.toNat + s.len.toNat ≤ bufBytes ∧ runKeystream p (CipherState.start k) s = .next t) := by
  unfold capplyWith at h
  split at h
  · exact .inl ⟨_, by simpa using h.symm⟩
  · rename_i hr
    rw [Bool.or_eq_true, not_or, State.dstLeaves_iff] at hr
    exact .inr ⟨Nat.le_of_not_lt hr.2, h⟩

/-! Sequencing. -/

@[simp] theorem andThen_next (s : State) (f : State → Result) : andThen (.next s) f = f s := rfl
@[simp] theorem andThen_fault (e : Fault) (f : State → Result) : andThen (.fault e) f = .fault e := rfl
@[simp] theorem andThen_refused (e : Refusal) (f : State → Result) : andThen (.refused e) f = .refused e := rfl

end Sys2Proof.Machine
end

