-- ==== Sys2Proof/Laws/Bus.lean ====
section
/-! SUPPORT. The laws of the host bus: which access reaches what (R39, R50 to R55), what an access that completes can
do (R37, R59), and accesses one after another (R63). -/

namespace Sys2Proof.Machine

/-! The register map (R39). -/

theorem regAt_eq_some {n : Nat} {r : Reg} : regAt n = some r ↔ n = r.offset.toNat := by
  constructor
  · intro h
    unfold regAt at h
    split at h <;> first | (cases h; rfl) | cases h
  · rintro rfl; cases r <;> rfl

theorem regAt_eq_none {n : Nat} : regAt n = none ↔ ¬ (n < 0x28 ∧ n % 4 = 0) := by
  constructor
  · rintro h ⟨h1, h2⟩
    interval_cases n <;> first | omega | cases h
  · intro h
    cases hr : regAt n with
    | none => rfl
    | some r =>
      rw [regAt_eq_some] at hr
      subst hr
      exact absurd (by cases r <;> decide) h

/-! The address map (R50 to R55). -/

/-- A width the buffer window admits (R52). -/
theorem bufAccessAdmitted_iff {width o : Nat} :
    bufAccessAdmitted width o = true ↔ (width = 1 ∨ width = 2 ∨ width = 4) ∧ o % width = 0 := by
  simp [bufAccessAdmitted, or_assoc]

@[simp] theorem busTarget_reg (r : Reg) : busTarget 4 r.offset = some (.reg r) := by cases r <;> rfl

/-- An aligned access of an admitted width to `BUF+a` reaches `BUF[a]` (R51, R52). -/
theorem busTarget_buf {width a : Nat} (hw : width = 1 ∨ width = 2 ∨ width = 4) (ha : a % width = 0)
    (hl : a < bufBytes) : busTarget width (bufOffset a) = some (.buf a) := by
  have hl : a < 131072 := hl
  have h : (bufOffset a).toNat = bufWindow + a := by
    rw [bufOffset, BitVec.toNat_ofNat]
    exact Nat.mod_eq_of_lt (by simp only [bufWindow]; omega)
  unfold busTarget
  rw [h, if_neg (by omega), if_pos, Nat.add_sub_cancel_left]
  rw [bufAccessAdmitted_iff]
  exact ⟨hw, by rcases hw with rfl | rfl | rfl <;> simp only [bufWindow] <;> omega⟩

/-- What an admitted access reaches (R39, R50 to R52): a register at its offset, or bytes inside BUF. -/
theorem busTarget_eq_some {width : Nat} {o : BitVec 18} {t : Target} (h : busTarget width o = some t) :
    (∃ r, t = .reg r ∧ width = 4 ∧ o = r.offset) ∨
      ∃ a, t = .buf a ∧ o.toNat = bufWindow + a ∧ a + width ≤ bufBytes ∧ (width = 1 ∨ width = 2 ∨ width = 4) := by
  unfold busTarget at h
  split at h
  · split at h
    · rename_i hw
      cases hr : regAt o.toNat with
      | none => rw [hr] at h; cases h
      | some r =>
        rw [hr] at h
        cases h
        exact .inl ⟨r, rfl, hw, BitVec.eq_of_toNat_eq (regAt_eq_some.1 hr)⟩
    · cases h
  · rename_i hb
    split at h
    · rename_i ha
      cases h
      obtain ⟨hw, ha⟩ := bufAccessAdmitted_iff.1 ha
      have := o.isLt
      refine .inr ⟨_, rfl, by omega, ?_, hw⟩
      rcases hw with rfl | rfl | rfl <;> simp only [bufWindow, bufBytes] at * <;> omega
    · cases h

/-- The accesses that R50, R52 and R54 admit, and no others, reach something. -/
theorem busTarget_eq_none {width : Nat} {o : BitVec 18} : busTarget width o = none ↔
    ¬ ((o.toNat < 0x28 ∧ width = 4 ∧ o.toNat % 4 = 0) ∨
      (0x20000 ≤ o.toNat ∧ (width = 1 ∨ width = 2 ∨ width = 4) ∧ o.toNat % width = 0)) := by
  unfold busTarget
  split
  · rename_i hb
    have hb : o.toNat < 131072 := hb
    split
    · rename_i hw
      rw [Option.map_eq_none_iff, regAt_eq_none]
      constructor
      · rintro h (h' | h') <;> omega
      · intro h h'; exact h (.inl ⟨h'.1, hw, h'.2⟩)
    · rename_i hw
      constructor
      · rintro - (h' | h') <;> omega
      · intro; rfl
  · rename_i hb
    have hb : ¬ o.toNat < 131072 := hb
    split
    · rename_i ha
      have ha := bufAccessAdmitted_iff.1 ha
      constructor
      · intro h; cases h
      · intro h; exact absurd (.inr ⟨by omega, ha⟩) h
    · rename_i ha
      rw [bufAccessAdmitted_iff] at ha
      constructor
      · rintro - (h' | h')
        · omega
        · exact ha h'.2
      · intro; rfl

/-! What an access that completes can do. -/

/-- A host read returns data and changes nothing else (R59). -/
theorem hostRead_next {width : Nat} {o : BitVec 18} {s t : State} (h : hostRead width o s = .next t) :
    ∃ v, t = s.returnData v := by
  unfold hostRead at h
  split at h
  · cases h
  · exact ⟨_, by simpa using h.symm⟩
  · split at h
    · cases h
    · exact ⟨_, by simpa using h.symm⟩

/-- A host write performs a command at CMD, writes one register, or stores inside BUF (R38, R39, R52). -/
theorem hostWrite_next {width : Nat} {o : BitVec 18} {v : Word} {s t : State} (h : hostWrite width o v s = .next t) :
    (width = 4 ∧ o = Reg.cmd.offset ∧ performWord v s = .next t) ∨
    (∃ r, r ≠ .cmd ∧ width = 4 ∧ o = r.offset ∧ t = s.writeReg r v) ∨
    ∃ a, o.toNat = bufWindow + a ∧ a + width ≤ bufBytes ∧ (width = 1 ∨ width = 2 ∨ width = 4) ∧
      t = s.withBuf (s.buf.memWrite a width v) := by
  unfold hostWrite at h
  split at h
  · cases h
  · rename_i hb
    obtain ⟨r, hr, hw, ho⟩ | ⟨a, hr, -⟩ := busTarget_eq_some hb
    · cases hr; exact .inl ⟨hw, ho, h⟩
    · cases hr
  · rename_i r hne hb
    obtain ⟨r', hr, hw, ho⟩ | ⟨a, hr, -⟩ := busTarget_eq_some hb
    · cases hr
      exact .inr (.inl ⟨r, fun e => hne (e ▸ rfl), hw, ho, by simpa using h.symm⟩)
    · cases hr
  · rename_i a hb
    obtain ⟨r', hr, -⟩ | ⟨a', hr, ho, ha, hw⟩ := busTarget_eq_some hb
    · cases hr
    · cases hr; exact .inr (.inr ⟨a, ho, ha, hw, by simpa using h.symm⟩)

/-- A write of a word to CMD performs it (R38). -/
theorem access_cmdWrite (w : Word) (s : State) : access (.write 4 0x000 w) s = performWord w s := rfl

/-- A write to a register other than CMD (R39). -/
theorem access_writeReg {r : Reg} (h : r ≠ .cmd) (v : Word) (s : State) :
    access (.write 4 r.offset v) s = .next (s.writeReg r v) := by
  show hostWrite 4 r.offset v s = _
  unfold hostWrite
  rw [busTarget_reg]
  cases r <;> first | rfl | exact absurd rfl h

/-- A read of a register (R39). -/
theorem access_readReg (r : Reg) (s : State) : access (.read 4 r.offset) s = .next (s.returnData (s.readReg r)) := by
  show hostRead 4 r.offset s = _
  unfold hostRead
  rw [busTarget_reg]

/-- A byte store (R52). -/
theorem access_storeByte {a : Nat} (ha : a < bufBytes) (b : Byte) (s : State) :
    access (.write 1 (bufOffset a) (b.setWidth 32)) s = .next (s.withBuf (s.buf.write a b)) := by
  show hostWrite 1 (bufOffset a) _ s = _
  unfold hostWrite
  rw [busTarget_buf (.inl rfl) (Nat.mod_one a) ha]
  simp only [Memory.memWrite]
  congr 3
  apply BitVec.eq_of_toNat_eq
  simp

/-- A byte load of a written byte (R52). -/
theorem access_loadByte {a : Nat} (ha : a < bufBytes) {b : Byte} {s : State} (h : s.buf.read a = some b) :
    access (.read 1 (bufOffset a)) s = .next (s.returnData (b.setWidth 32)) := by
  show hostRead 1 (bufOffset a) s = _
  unfold hostRead
  rw [busTarget_buf (.inl rfl) (Nat.mod_one a) ha]
  simp only [Memory.memRead, Memory.readOnto, Memory.readByte_eq_ok.2 h]
  congr 2
  simp

/-! Accesses one after another (R63). -/

@[simp] theorem accessAll_nil (s : State) : accessAll [] s = .next s := rfl
theorem accessAll_cons (e : Event) (es : List Event) (s : State) :
    accessAll (e :: es) s = andThen (access e s) (accessAll es) := rfl

theorem andThen_assoc (r : Result) (f g : State → Result) :
    andThen (andThen r f) g = andThen r fun s => andThen (f s) g := by
  cases r <;> rfl

theorem accessAll_append (es fs : List Event) (s : State) :
    accessAll (es ++ fs) s = andThen (accessAll es s) (accessAll fs) := by
  induction es generalizing s with
  | nil => rfl
  | cons e es ih =>
    rw [List.cons_append, accessAll_cons, accessAll_cons, andThen_assoc]
    congr 1
    funext t
    exact ih t

@[simp] theorem State.returnData_readLog (s : State) (v : Word) : (s.returnData v).readLog = v :: s.readLog := rfl
@[simp] theorem State.returnData_buf (s : State) (v : Word) : (s.returnData v).buf = s.buf := rfl

end Sys2Proof.Machine
end

