-- ==== Sys2Proof/Laws/Commands.lean ====
section
/-! SUPPORT. The commands as check and effect (R201, R202): a command records the code of its first failing check, or
has its effect, said once for all of them; and no command reads what the host interface holds back (R58). -/

namespace Sys2Proof.Machine

/-- What a command does once its checks passed (40_checksum.md, 41_cipher.md, 42_control.md). -/
def effect (i : Instr) (s : State) : Result :=
  match i with
  | .nop => .next s
  | .sinit =>
    match s.initialChecksum with
    | .error f => .fault f
    | .ok c => .next (s.withChecksum c)
  | .sinitx t0 t1 => .next (s.withChecksum (ChecksumState.start t0.toNat t1.toNat))
  | .sfeed =>
    match s.sourceBytes with
    | .error f => .fault f
    | .ok bs => .next (s.withChecksum (s.checksum.feedAll Config.params bs))
  | .sbyte d => .next (s.withChecksum (s.checksum.feed Config.params d))
  | .sum32 =>
    match s.initialChecksum with
    | .error f => .fault f
    | .ok c =>
      match s.sourceBytes with
      | .error f => .fault f
      | .ok bs => .next (s.withChecksum (c.feedAll Config.params bs))
  | .cseed k => .next (s.withCipher (CipherState.start k))
  | .cxor => runKeystream Config.params s.cipher s
  | .cbyte d => .next ((s.withOut (d ^^^ s.cipher.mask Config.params)).withCipher s.cipher.advance)
  | .capply k => runKeystream Config.params (CipherState.start k) s
  | .clr => .next (((s.withCipher CipherState.cleared).withChecksum ChecksumState.cleared).withOut 0)

theorem State.leaves_iff (s : State) : (s.srcLeaves || s.dstLeaves) = true ↔
    bufBytes < s.src.toNat + s.len.toNat ∨ bufBytes < s.dst.toNat + s.len.toNat := by
  rw [Bool.or_eq_true, State.srcLeaves_iff, State.dstLeaves_iff]

/-- Every command is its check followed by its effect. -/
theorem exec_eq (i : Instr) (s : State) : exec i s =
    match commandError s i with
    | some e => .next (s.recorded e)
    | none => effect i s := by
  cases i <;> simp only [exec, commandError, effect]
  case nop => rfl
  case sinitx => rfl
  case cseed => rfl
  case clr => rfl
  case sinit =>
    unfold execSinit
    simp only [State.regionLen_eq_zero, State.srcLeaves_iff, raiseError_eq]
    split <;> [rfl; skip]
    split <;> rfl
  case sum32 =>
    unfold execSum32 sum32With
    simp only [State.regionLen_eq_zero, State.srcLeaves_iff, raiseError_eq]
    split <;> [rfl; skip]
    split <;> rfl
  case sfeed =>
    unfold execSfeed sfeedWith
    simp only [State.srcLeaves_iff, raiseError_eq]
    split <;> [rfl; skip]
    split <;> rfl
  case sbyte =>
    unfold execSbyte sbyteWith
    simp only [raiseError_eq]
    split <;> rfl
  case cbyte =>
    unfold execCbyte cbyteWith
    simp only [raiseError_eq]
    split <;> rfl
  case cxor =>
    unfold execCxor cxorWith
    simp only [State.leaves_iff, raiseError_eq]
    split <;> [rfl; skip]
    split <;> rfl
  case capply =>
    unfold execCapply capplyWith
    simp only [State.leaves_iff, raiseError_eq]
    split <;> rfl

theorem exec_of_error {i : Instr} {s : State} {e : ErrCode} (h : commandError s i = some e) :
    exec i s = .next (s.recorded e) := by rw [exec_eq, h]

theorem exec_of_none {i : Instr} {s : State} (h : commandError s i = none) : exec i s = effect i s := by rw [exec_eq, h]

/-- The next states of an effect, one case a command. -/
theorem effect_next {i : Instr} {s t : State} (h : effect i s = .next t) :
    (i = .nop ∧ t = s) ∨
    (i = .sinit ∧ ∃ c, s.initialChecksum = .ok c ∧ t = s.withChecksum c) ∨
    (∃ a b, i = .sinitx a b ∧ t = s.withChecksum (ChecksumState.start a.toNat b.toNat)) ∨
    (i = .sfeed ∧ ∃ bs, s.sourceBytes = .ok bs ∧ t = s.withChecksum (s.checksum.feedAll Config.params bs)) ∨
    (∃ d, i = .sbyte d ∧ t = s.withChecksum (s.checksum.feed Config.params d)) ∨
    (i = .sum32 ∧ ∃ c bs, s.initialChecksum = .ok c ∧ s.sourceBytes = .ok bs ∧
      t = s.withChecksum (c.feedAll Config.params bs)) ∨
    (∃ k, i = .cseed k ∧ t = s.withCipher (CipherState.start k)) ∨
    (i = .cxor ∧ ∃ c m, cipherRegion Config.params s.len.toNat s.src.toNat s.dst.toNat s.cipher s.buf = .ok (c, m) ∧
      t = (s.withCipher c).withBuf m) ∨
    (∃ d, i = .cbyte d ∧ t = (s.withOut (d ^^^ s.cipher.mask Config.params)).withCipher s.cipher.advance) ∨
    (∃ k, i = .capply k ∧ ∃ c m,
      cipherRegion Config.params s.len.toNat s.src.toNat s.dst.toNat (CipherState.start k) s.buf = .ok (c, m) ∧
      t = (s.withCipher c).withBuf m) ∨
    (i = .clr ∧ t = ((s.withCipher CipherState.cleared).withChecksum ChecksumState.cleared).withOut 0) := by
  cases i <;> simp only [effect] at h <;> simp
  case nop => cases h; rfl
  case sinit => split at h <;> cases h; rename_i c hc; exact ⟨c, hc, rfl⟩
  case sinitx => cases h; rfl
  case sfeed => split at h <;> cases h; rename_i c hc; exact ⟨c, hc, rfl⟩
  case sbyte => cases h; rfl
  case sum32 =>
    split at h <;> [cases h; skip]
    rename_i c hc
    split at h <;> cases h
    rename_i bs hbs
    exact ⟨c, hc, bs, hbs, rfl⟩
  case cseed => cases h; rfl
  case cxor => exact runKeystream_next h
  case cbyte => cases h; rfl
  case capply => exact runKeystream_next h
  case clr => cases h; rfl

/-- A result with the held-back accesses replaced. -/
def mapPending (es : List Event) (r : Result) : Result :=
  match r with
  | .next t => .next (t.withPending es)
  | .fault e => .fault e
  | .refused e => .refused e

/-- No command reads or writes the held-back accesses. -/
theorem exec_withPending (i : Instr) (s : State) (es : List Event) :
    exec i (s.withPending es) = mapPending es (exec i s) := by
  rw [exec_eq, exec_eq, show commandError (s.withPending es) i = commandError s i by cases i <;> rfl]
  cases commandError s i with
  | some e => rfl
  | none =>
    cases i <;> simp only [effect, runKeystream, State.withPending_initialChecksum, State.withPending_sourceBytes]
    case sinit => generalize s.initialChecksum = x; cases x <;> rfl
    case sfeed => generalize s.sourceBytes = x; cases x <;> rfl
    case sum32 =>
      generalize s.initialChecksum = x
      generalize s.sourceBytes = y
      cases x <;> cases y <;> rfl
    case cxor =>
      simp only [State.regionLen, State.srcAddr, State.dstAddr, State.withPending_len, State.withPending_src,
        State.withPending_dst, State.withPending_buf, State.withPending_cipher]
      generalize cipherRegion _ _ _ _ _ _ = x
      cases x <;> rfl
    case capply =>
      simp only [State.regionLen, State.srcAddr, State.dstAddr, State.withPending_len, State.withPending_src,
        State.withPending_dst, State.withPending_buf]
      generalize cipherRegion _ _ _ _ _ _ = x
      cases x <;> rfl
    all_goals rfl

/-- No access reads or writes the accesses behind it (R58). -/
theorem access_withPending (e : Event) (s : State) (es : List Event) :
    access e (s.withPending es) = mapPending es (access e s) := by
  cases e with
  | reset => rfl
  | read w o =>
    simp only [access, hostRead]
    cases busTarget w o with
    | none => rfl
    | some t =>
      cases t with
      | reg r => cases r <;> rfl
      | buf a =>
        simp only [State.withPending_buf]
        generalize s.buf.memRead a w = x
        cases x <;> rfl
  | write w o v =>
    simp only [access, hostWrite]
    cases busTarget w o with
    | none => rfl
    | some t =>
      cases t with
      | buf a => rfl
      | reg r =>
        cases r <;> try rfl
        · simp only [performWord]
          cases decode v with
          | ok i => exact exec_withPending i s es
          | error => simp only [raiseError_eq]; rfl
        · simp only [State.writeReg, State.writeStatus]
          cases v.getLsbD 3 <;> rfl

end Sys2Proof.Machine
end

