-- ==== Sys2Proof/Laws/Decode.lean ====
section
/-! SUPPORT. The command word as a number (R81 to R84): the encoder's words and the decoder's tests in arithmetic on
naturals, from which round trips and counts follow by omega. -/

namespace Sys2Proof

theorem wordN_toNat (op : BitVec 4) : (wordN op).toNat = op.toNat * 268435456 := by
  simp only [wordN, BitVec.toNat_append]
  simp [Nat.shiftLeft_eq]

theorem wordB_toNat (op : BitVec 4) (b : Byte) : (wordB op b).toNat = op.toNat * 268435456 + b.toNat := by
  simp only [wordB, BitVec.toNat_append]
  rw [← Nat.shiftLeft_add_eq_or_of_lt (by omega), ← Nat.shiftLeft_add_eq_or_of_lt (by simp)]
  simp [Nat.shiftLeft_eq]
  omega

theorem wordX_toNat (op : BitVec 4) (h l : Byte) :
    (wordX op h l).toNat = op.toNat * 268435456 + h.toNat * 256 + l.toNat := by
  simp only [wordX, BitVec.toNat_append]
  rw [← Nat.shiftLeft_add_eq_or_of_lt (by omega), ← Nat.shiftLeft_add_eq_or_of_lt (by omega),
    ← Nat.shiftLeft_add_eq_or_of_lt (by simp)]
  simp [Nat.shiftLeft_eq]
  omega

theorem extract_toNat (w : Word) (s l : Nat) : (w.extractLsb' s l).toNat = w.toNat / 2 ^ s % 2 ^ l := by
  simp [BitVec.extractLsb'_toNat, Nat.shiftRight_eq_div_pow]

theorem extract_eq_zero (w : Word) (s l : Nat) : w.extractLsb' s l = 0 ↔ w.toNat / 2 ^ s % 2 ^ l = 0 := by
  rw [← BitVec.toNat_inj, extract_toNat]; simp

theorem opField_eq (w : Word) (n : Nat) (h : n < 16) : opField w = BitVec.ofNat 4 n ↔ w.toNat / 268435456 = n := by
  rw [← BitVec.toNat_inj, opField, extract_toNat, BitVec.toNat_ofNat]
  have := w.isLt
  omega

theorem immLow_eq (w : Word) : immLow w = BitVec.ofNat 8 w.toNat := by
  rw [← BitVec.toNat_inj, immLow, extract_toNat]; simp

theorem immHigh_eq (w : Word) : immHigh w = BitVec.ofNat 8 (w.toNat / 256) := by
  rw [← BitVec.toNat_inj, immHigh, extract_toNat]; simp

/-- Format N as arithmetic. -/
def arithN (n : Nat) (i : Instr) : Except Illegal Instr :=
  if n % 268435456 = 0 then .ok i else .error .lowBitsN

/-- Format B as arithmetic. -/
def arithB (n : Nat) (mk : Byte → Instr) : Except Illegal Instr :=
  if n / 256 % 1048576 = 0 then .ok (mk (BitVec.ofNat 8 n)) else .error .lowBitsB

/-- Format X as arithmetic. -/
def arithX (n : Nat) (mk : Byte → Byte → Instr) : Except Illegal Instr :=
  if n / 65536 % 4096 = 0 then .ok (mk (BitVec.ofNat 8 n) (BitVec.ofNat 8 (n / 256))) else .error .lowBitsX

theorem decodeN_eq (w : Word) (i : Instr) : decodeN w i = arithN w.toNat i := by
  simp only [decodeN, arithN, extract_eq_zero]
  norm_num

theorem decodeB_eq (w : Word) (mk : Byte → Instr) : decodeB w mk = arithB w.toNat mk := by
  simp only [decodeB, arithB, extract_eq_zero, immLow_eq]
  norm_num

theorem decodeX_eq (w : Word) (mk : Byte → Byte → Instr) : decodeX w mk = arithX w.toNat mk := by
  simp only [decodeX, arithX, extract_eq_zero, immLow_eq, immHigh_eq]
  norm_num

/-- The decoder, chosen by the number OP (R83, R84). -/
theorem decode_eq (w : Word) : decode w =
    (match w.toNat / 268435456 with
     | 0 => arithN w.toNat .nop
     | 1 => arithN w.toNat .sinit
     | 2 => arithX w.toNat .sinitx
     | 3 => arithN w.toNat .sfeed
     | 4 => arithB w.toNat .sbyte
     | 5 => arithN w.toNat .sum32
     | 6 => arithB w.toNat .cseed
     | 7 => arithN w.toNat .cxor
     | 8 => arithB w.toNat .cbyte
     | 9 => arithB w.toNat .capply
     | 10 => arithN w.toNat .clr
     | _ => .error .reservedOp) := by
  have h := opField_eq w
  have hlt : w.toNat / 268435456 < 16 := by have := w.isLt; omega
  unfold decode
  rw [decodeN_eq, decodeN_eq, decodeX_eq, decodeN_eq, decodeB_eq, decodeN_eq, decodeB_eq, decodeN_eq, decodeB_eq,
    decodeB_eq, decodeN_eq]
  rw [show opField w = BitVec.ofNat 4 (w.toNat / 268435456) from (h _ hlt).2 rfl]
  generalize w.toNat / 268435456 = n at hlt
  interval_cases n <;> rfl

theorem arithN_ok {n : Nat} {i j : Instr} : arithN n i = .ok j ↔ n % 268435456 = 0 ∧ i = j := by
  unfold arithN; split <;> simp_all

theorem arithB_ok {n : Nat} {mk : Byte → Instr} {j : Instr} :
    arithB n mk = .ok j ↔ n / 256 % 1048576 = 0 ∧ mk (BitVec.ofNat 8 n) = j := by
  unfold arithB; split <;> simp_all

theorem arithX_ok {n : Nat} {mk : Byte → Byte → Instr} {j : Instr} :
    arithX n mk = .ok j ↔ n / 65536 % 4096 = 0 ∧ mk (BitVec.ofNat 8 n) (BitVec.ofNat 8 (n / 256)) = j := by
  unfold arithX; split <;> simp_all

end Sys2Proof
end

