-- ==== Sys2Proof/Laws/Framing.lean ====
section
/-! SUPPORT. The laws of the source's functions and of the host programs: `apply` byte by byte and `checksum32` as the
loop of SFEED (R15, R144), what the accesses of a line leave (R88), byte stores and byte loads (R174, R176). -/

namespace Sys2Proof.Machine

/-! The source's functions (R15). -/

theorem applyFrom_getElem? (p : Params) (d : List Byte) (k : Byte) (j i : Nat) :
    (applyFrom p (lcgNext^[j] (lcgSeed k)) j d)[i]? = d[i]?.map (fun b => b ^^^ maskAt p k (j + i)) := by
  induction d generalizing j i with
  | nil => simp [applyFrom]
  | cons b d ih =>
    rw [applyFrom]
    cases i with
    | zero => simp [maskAt, BitVec.xor_assoc]
    | succ i =>
      rw [List.getElem?_cons_succ, List.getElem?_cons_succ, ← Function.iterate_succ_apply' lcgNext, ih]
      simp only [show j + 1 + i = j + (i + 1) by omega]

/-- Byte `i` of `apply` is byte `i` of the data XORed with mask(k, i) (R144). -/
theorem applyKey_getElem? (p : Params) (d : List Byte) (k : Byte) (i : Nat) :
    (applyKey p d k)[i]? = d[i]?.map (fun b => b ^^^ maskAt p k i) := by
  have := applyFrom_getElem? p d k 0 i
  rw [Nat.zero_add] at this
  exact this

theorem applyFrom_length (p : Params) (d : List Byte) (x : Word) (i : Nat) : (applyFrom p x i d).length = d.length := by
  induction d generalizing x i with
  | nil => rfl
  | cons b d ih => rw [applyFrom, List.length_cons, ih]; rfl

theorem applyKey_length (p : Params) (d : List Byte) (k : Byte) : (applyKey p d k).length = d.length :=
  applyFrom_length ..

/-- The loop of `checksum32` is the loop of SFEED (R106, R112). -/
theorem checksumFrom_eq_feedAll (p : Params) (bs : List Byte) (i : Nat) (c : ChecksumState)
    (h : c.spos = BitVec.ofNat 2 i) : checksumFrom p i c.t0i c.t1i c.acc bs = (c.feedAll p bs).acc := by
  induction bs generalizing i c with
  | nil => rfl
  | cons b bs ih =>
    rw [ChecksumState.feedAll_cons, checksumFrom, ← h]
    refine ih (i + 1) (c.feed p b) ?_
    rw [ChecksumState.feed_spos, h]
    apply BitVec.eq_of_toNat_eq
    simp [BitVec.toNat_add]

/-! The lines of the host assembly (R88). -/

/-- `region` leaves SRC, DST and LEN (R88). -/
theorem accessAll_regionLines (a b n : Nat) (s : State) : accessAll (regionLines a b n) s =
    .next (((s.withSrc (BitVec.ofNat 17 a)).withDst (BitVec.ofNat 17 b)).withLen (BitVec.ofNat 18 n)) := by
  have h : ∀ m : Nat, m ≤ 32 → ∀ v : Nat, (BitVec.ofNat 32 v).setWidth m = BitVec.ofNat m v := by
    intro m hm v
    apply BitVec.eq_of_toNat_eq
    rw [BitVec.toNat_setWidth, BitVec.toNat_ofNat, BitVec.toNat_ofNat,
      Nat.mod_mod_of_dvd _ (Nat.pow_dvd_pow 2 hm)]
  rw [regionLines, st32, st32, st32, accessAll_cons, access_writeReg (by decide), andThen_next, accessAll_cons,
    access_writeReg (by decide), andThen_next, accessAll_cons, access_writeReg (by decide), andThen_next,
    accessAll_nil]
  simp only [State.writeReg, h 17 (by decide), h 18 (by decide)]

/-! Byte stores and byte loads. -/

/-- Byte stores inside BUF leave the bytes, and change no other byte and nothing else (R52). -/
theorem accessAll_storeBytes {bs : List Byte} {a : Nat} (h : a + bs.length ≤ bufBytes) (s : State) :
    ∃ m, accessAll (storeBytes a bs) s = .next (s.withBuf m) ∧ m.holds a bs ∧
      ∀ x, x < a ∨ a + bs.length ≤ x → m.read x = s.buf.read x := by
  induction bs generalizing a s with
  | nil => exact ⟨s.buf, rfl, Memory.holds_nil _ _, fun _ _ => rfl⟩
  | cons b bs ih =>
    rw [List.length_cons] at h ⊢
    obtain ⟨m, h1, h2, h3⟩ := ih (a := a + 1) (by omega) (s.withBuf (s.buf.write a b))
    refine ⟨m, ?_, Memory.holds_cons.2 ⟨?_, h2⟩, fun x hx => ?_⟩
    · rw [storeBytes, accessAll_cons, access_storeByte (by omega), andThen_next, h1]; rfl
    · rw [h3 a (by omega), State.withBuf_buf, Memory.read_write_same]
    · rw [h3 x (by omega), State.withBuf_buf, Memory.read_write_other _ _ (by omega)]

@[simp] theorem hostBind_next {α β : Type} (a : α) (s : State) (f : α → State → HostRun β) :
    hostBind (.next (a, s)) f = f a s := rfl

/-- Accesses that complete answer the last data read (R63). -/
theorem issue_eq {es : List Event} {s t : State} (h : accessAll es s = .next t) :
    issue es s = .next (t.readLog.headD 0, t) := by
  rw [issue, h]

/-- Byte loads of written bytes return them, and change nothing but what was returned (R52, R59). -/
theorem loadBytes_eq {bs : List Byte} {a : Nat} {s : State} (h : a + bs.length ≤ bufBytes) (hb : s.buf.holds a bs) :
    ∃ log, loadBytes a bs.length s = .next (bs, s.withReadLog log) := by
  induction bs generalizing a s with
  | nil => exact ⟨s.readLog, rfl⟩
  | cons b bs ih =>
    rw [List.length_cons] at h
    obtain ⟨h0, h1⟩ := Memory.holds_cons.1 hb
    obtain ⟨log, hl⟩ := ih (a := a + 1) (s := s.returnData (b.setWidth 32)) (by omega) h1
    refine ⟨log, ?_⟩
    have ha : accessAll [.read 1 (bufOffset a)] s = .next (s.returnData (b.setWidth 32)) := by
      rw [accessAll_cons, access_loadByte (by omega) h0]; rfl
    have hv : ((s.returnData (b.setWidth 32)).readLog.headD 0).setWidth 8 = b := by
      apply BitVec.eq_of_toNat_eq
      simp
    rw [List.length_cons, loadBytes, issue_eq ha, hostBind_next, hl, hostBind_next, hv]
    rfl

end Sys2Proof.Machine
end

