-- ==== Sys2Proof/Laws/PerInstr.lean ====
section
/-! SUPPORT. Statements made a command at a time (LAWS.json). Family `EncodingRow`: the word of a command selects the
row of the opcode map that bears its mnemonic (R83). -/

namespace Sys2Proof.Laws.EncodingRow

/-- The command's word selects its own row (R83). -/
def Statement (i : Instr) : Prop := ∃ r ∈ opcodeMap, r.mnemonic = i.mnemonic ∧ r.selects (encode i) = true

/-- A format B word, masked as its row says, is the row's pattern (R81). -/
theorem wordB_masked (op : BitVec 4) (b : Byte) : wordB op b &&& 0xFFFFFF00 = wordB op 0 := by
  apply BitVec.eq_of_getLsbD_eq
  intro i hi
  simp only [wordB, BitVec.getLsbD_and, BitVec.getLsbD_append]
  interval_cases i <;> simp

/-- A format X word, masked as its row says, is the row's pattern (R81). -/
theorem wordX_masked (op : BitVec 4) (h l : Byte) : wordX op h l &&& 0xFFFF0000 = wordX op 0 0 := by
  apply BitVec.eq_of_getLsbD_eq
  intro i hi
  simp only [wordX, BitVec.getLsbD_and, BitVec.getLsbD_append]
  interval_cases i <;> simp

/-- A command whose masked word is the pattern of the `n`-th row selects that row. -/
theorem of_row (i : Instr) (r : OpcodeRow) (hr : r ∈ opcodeMap) (hm : r.mnemonic = i.mnemonic)
    (hp : encode i &&& r.mask = r.pattern) : Statement i :=
  ⟨r, hr, hm, by simp [OpcodeRow.selects, hp]⟩

theorem nop : Statement .nop := of_row _ ⟨"NOP", 0x00000000, 0xFFFFFFFF⟩ (by decide) rfl (by decide)
theorem sinit : Statement .sinit := of_row _ ⟨"SINIT", 0x10000000, 0xFFFFFFFF⟩ (by decide) rfl (by decide)
theorem sinitx (t0 t1 : Byte) : Statement (.sinitx t0 t1) :=
  of_row _ ⟨"SINITX", 0x20000000, 0xFFFF0000⟩ (by decide) rfl ((wordX_masked _ _ _).trans (by decide))
theorem sfeed : Statement .sfeed := of_row _ ⟨"SFEED", 0x30000000, 0xFFFFFFFF⟩ (by decide) rfl (by decide)
theorem sbyte (d : Byte) : Statement (.sbyte d) :=
  of_row _ ⟨"SBYTE", 0x40000000, 0xFFFFFF00⟩ (by decide) rfl ((wordB_masked _ _).trans (by decide))
theorem sum32 : Statement .sum32 := of_row _ ⟨"SUM32", 0x50000000, 0xFFFFFFFF⟩ (by decide) rfl (by decide)
theorem cseed (k : Byte) : Statement (.cseed k) :=
  of_row _ ⟨"CSEED", 0x60000000, 0xFFFFFF00⟩ (by decide) rfl ((wordB_masked _ _).trans (by decide))
theorem cxor : Statement .cxor := of_row _ ⟨"CXOR", 0x70000000, 0xFFFFFFFF⟩ (by decide) rfl (by decide)
theorem cbyte (d : Byte) : Statement (.cbyte d) :=
  of_row _ ⟨"CBYTE", 0x80000000, 0xFFFFFF00⟩ (by decide) rfl ((wordB_masked _ _).trans (by decide))
theorem capply (k : Byte) : Statement (.capply k) :=
  of_row _ ⟨"CAPPLY", 0x90000000, 0xFFFFFF00⟩ (by decide) rfl ((wordB_masked _ _).trans (by decide))
theorem clr : Statement .clr := of_row _ ⟨"CLR", 0xA0000000, 0xFFFFFFFF⟩ (by decide) rfl (by decide)

end Sys2Proof.Laws.EncodingRow
end

