-- ==== Sys2Proof/Tests/Slice0.lean ====
section
/-! SUPPORT. Tests: decoding of words written out from the spec's encodings, ill-formed terms refused, one-step results
from 95_test_vectors.md (derived there from the rules, not from this model), and for each obligation with hypotheses a
concrete case that meets them, at the boundaries of its clauses. -/

namespace Sys2Proof.Tests

open Sys2Proof.Machine

/-! Helpers. -/

/-- Instance C of 95_test_vectors.md: the candidate tables, unverified; used for arithmetic only. -/
def instC : Params :=
  { t0 := #v[0x35, 0x7A, 0xAA, 0x97, 0x53, 0x66, 0x12]
    t1 := #v[0x7A, 0xAA, 0x97, 0x53, 0x66, 0x12, 0xDE, 0xDE, 0x35]
    kt := #v[0x01, 0x23, 0x34, 0x45, 0x56, 0xAB, 0xCD, 0xEF]
    idxMode := .wrap8 }

/-- Instance C under UNBOUNDED. -/
def instCU : Params := { instC with idxMode := .unbounded }

/-- Instance Z of 95_test_vectors.md: all tables zero. -/
def instZ : Params :=
  { t0 := #v[0, 0, 0, 0, 0, 0, 0], t1 := #v[0, 0, 0, 0, 0, 0, 0, 0, 0], kt := #v[0, 0, 0, 0, 0, 0, 0, 0],
    idxMode := .wrap8 }

/-- From reset, with region registers and written bytes. -/
def region (src : BitVec 17) (dst : BitVec 17) (len : BitVec 18) (cells : Memory) : State :=
  { State.reset with src := src, dst := dst, len := len, buf := cells }

/-- What a step's next state shows; none where it stops. -/
def seen {α : Type} (r : Result) (f : State → α) : Option α :=
  match r with
  | .next t => some (f t)
  | .fault _ => none
  | .refused _ => none

/-- The fault of a step that stops. -/
def faultOf (r : Result) : Option Fault :=
  match r with
  | .next _ => none
  | .fault e => some e
  | .refused _ => none

/-- Seeded with a key, from reset. -/
def seeded (k : Byte) (s : State) : State := { s with cipher := CipherState.start k }

/-- Initialised with two indices, from reset. -/
def initialised (t0 t1 : Nat) (s : State) : State := { s with checksum := ChecksumState.start t0 t1 }

/-! Decoding (95_test_vectors.md 2.5): the words bit by bit from the formats of R81 and the opcode map of R83. -/

theorem test_decode_nop : decode 0b0000_0000000000000000000000000000#32 = .ok .nop := by decide
theorem test_decode_sinit : decode 0b0001_0000000000000000000000000000#32 = .ok .sinit := by decide
theorem test_decode_sinitx :
    decode 0b0010_000000000000_10101011_11001101#32 = .ok (.sinitx 0xCD 0xAB) := by decide
theorem test_decode_sfeed : decode 0b0011_0000000000000000000000000000#32 = .ok .sfeed := by decide
theorem test_decode_sbyte : decode 0b0100_00000000000000000000_11111111#32 = .ok (.sbyte 0xFF) := by decide
theorem test_decode_sum32 : decode 0b0101_0000000000000000000000000000#32 = .ok .sum32 := by decide
theorem test_decode_cseed : decode 0b0110_00000000000000000000_01011010#32 = .ok (.cseed 0x5A) := by decide
theorem test_decode_cxor : decode 0b0111_0000000000000000000000000000#32 = .ok .cxor := by decide
theorem test_decode_cbyte : decode 0b1000_00000000000000000000_01000001#32 = .ok (.cbyte 0x41) := by decide
theorem test_decode_capply : decode 0b1001_00000000000000000000_00010001#32 = .ok (.capply 0x11) := by decide
theorem test_decode_clr : decode 0b1010_0000000000000000000000000000#32 = .ok .clr := by decide

theorem test_decode_illegal :
    decode 0x00000001 = .error .lowBitsN ∧ decode 0x0FFFFFFF = .error .lowBitsN ∧
    decode 0x10000001 = .error .lowBitsN ∧ decode 0x20010000 = .error .lowBitsX ∧
    decode 0x40000100 = .error .lowBitsB ∧ decode 0x60000100 = .error .lowBitsB ∧
    decode 0xA0000001 = .error .lowBitsN ∧ decode 0xB0000000 = .error .reservedOp ∧
    decode 0xC0000000 = .error .reservedOp ∧ decode 0xFFFFFFFF = .error .reservedOp := by decide

/-- The words of programs P1, P2 and P3 as the encoder gives them. -/
theorem test_encode :
    encode (.sinitx 0x05 0x30) = 0x20003005 ∧ encode (.capply 0x5A) = 0x9000005A ∧ encode (.sbyte 0x10) = 0x40000010 ∧
    encode (.cseed 0x00) = 0x60000000 ∧ encode .cxor = 0x70000000 ∧ encode .sum32 = 0x50000000 := by decide

theorem test_decodeTableWord : decodeTableWord 32 0x2000ABCD = some (.sinitx 0xCD 0xAB) := by decide

/-- A word placed by withFetchWord is the next step's command. -/
theorem test_withFetchWord :
    seen (step (State.reset.withFetchWord 32 0x6000005A)) (fun t => (t.cipher, t.pending)) =
      some ({ lcg := 0x004A99EF, kpos := 0, seeded := true }, []) := by decide

/-! Ill-formed lines of the host assembly, one for each check (R87, R88). -/

theorem test_wf_instr : (Instr.sinitx 0xFF 0xFF).wellFormed = true := by decide
theorem test_wf_lines_accepted :
    (HostLine.stReg .cmd 0xFFFFFFFF).wellFormed = true ∧ (HostLine.stBuf 1 0x1FFFF 0xFF).wellFormed = true ∧
    (HostLine.stBuf 2 0x1FFFE 0xFFFF).wellFormed = true ∧ (HostLine.ldBuf 4 0x1FFFC).wellFormed = true ∧
    (HostLine.region 0 0 0).wellFormed = true := by decide
theorem test_wf_immediate_too_wide : (HostLine.stReg .cmd 0x100000000).assemble = none := by decide
theorem test_wf_store_width : (HostLine.stBuf 3 0 0).assemble = none := by decide
theorem test_wf_store_outside_buf : (HostLine.stBuf 1 0x20000 0).assemble = none := by decide
theorem test_wf_store_value_too_wide : (HostLine.stBuf 1 0 0x100).assemble = none := by decide
theorem test_wf_load_width : (HostLine.ldBuf 8 0).assemble = none := by decide
theorem test_wf_load_outside_buf : (HostLine.ldBuf 4 0x20000).assemble = none := by decide
theorem test_wf_pseudo_too_wide :
    (HostLine.region 0x100000000 0 0).assemble = none ∧ (HostLine.region 0 0x100000000 0).assemble = none ∧
    (HostLine.region 0 0 0x100000000).assemble = none ∧ (HostLine.applyKey 0 0 0x100000000 0).assemble = none ∧
    (HostLine.checksum 0x100000000 0).assemble = none ∧ (HostLine.checksum 0 0x100000000).assemble = none := by decide

/-! One step of each command (95_test_vectors.md 2.1 to 2.4, 2.7). -/

/-- V-N1. -/
theorem test_nop : seen (exec .nop (seeded 0x00 .reset)) (fun t => (t.cipher.lcg, t.cipher.kpos, t.statusWord)) =
    some (0x00000001, 0, 0x00000001) := by decide

/-- V-S2. -/
theorem test_sinit_one_byte : seen (exec .sinit (region 0 0 1 [(0, 0x9C)])) (fun t => (t.sidxWord, t.checksum.acc.sum)) =
    some (0x00009C01, 0) := by decide

/-- V-S3: the middle of two bytes is the second. -/
theorem test_sinit_two_bytes : seen (exec .sinit (region 0 0 2 [(0, 0x9C), (1, 0x3F)])) State.sidxWord =
    some 0x00003F02 := by decide

/-- V-S4: `sinitx 0x03, 0x02`. -/
theorem test_sinitx : seen (performWord 0x20000203 .reset) (fun t => (t.checksum.t0i, t.checksum.t1i)) = some (3, 2) := by
  decide

/-- V-S6: an empty region. -/
theorem test_sfeed_empty : seen (exec .sfeed (initialised 7 9 (region 0 0 0 []))) (fun t => (t.sidxWord, t.err.errv)) =
    some (0x00000907, false) := by decide

/-- V-S7, V-S8: one SFEED over the five bytes. -/
theorem test_sfeed : seen (sfeedWith instC (initialised 5 0x30 (region 0x40 0 5
    [(0x40, 0x10), (0x41, 0x20), (0x42, 0x30), (0x43, 0x40), (0x44, 0x50)]))) (fun t => (t.checksum.acc.sum, t.sidxWord)) =
    some (0x56079434, 0x0001350A) := by decide

/-- V-S1, row FF under WRAP8: the second index wraps to 0. -/
theorem test_sbyte_wraps : seen (sbyteWith instC 0xFF (initialised 1 0xFF .reset))
    (fun t => (t.checksum.acc.sum, t.checksum.t0i, t.checksum.t1i, t.checksum.spos)) = some (0x2F000000, 2, 0, 1) := by
  decide

/-- V-S1, row FF under UNBOUNDED: the second index goes on to 256. -/
theorem test_sbyte_unbounded : seen (sbyteWith instCU 0xFF (initialised 1 0xFF .reset))
    (fun t => (t.checksum.acc.sum, t.checksum.t1i)) = some (0x33000000, 256) := by decide

/-- V-S1, row ABCDE. -/
theorem test_sum32 : seen (sum32With instC (region 0 0 5 [(0, 0x41), (1, 0x42), (2, 0x43), (3, 0x44), (4, 0x45)]))
    (fun t => (t.checksum.acc.sum, t.checksum.t0i, t.checksum.t1i, t.checksum.spos)) = some (0xE9A9E7DB, 10, 72, 1) := by
  decide

/-- V-S1, row FF 00 00 00 01 under Z: no carry leaves lane 0. -/
theorem test_sum32_no_carry : seen (sum32With instZ (region 0 0 5 [(0, 0xFF), (1, 0), (2, 0), (3, 0), (4, 0x01)]))
    (fun t => t.checksum.acc.sum) = some 0x00000000 := by decide

/-- V-C1. -/
theorem test_cseed : seen (exec (.cseed 0x5A) .reset) (fun t => t.cipher) =
    some { lcg := 0x004A99EF, kpos := 0, seeded := true } := by decide

/-- V-C9 under Z: an overlapping region is enciphered byte by byte. -/
theorem test_cxor_overlap : seen (cxorWith instZ (seeded 0x00 (region 0 1 3 [(0, 0), (1, 0), (2, 0), (3, 0)])))
    (fun t => (t.buf, t.cipher.lcg, t.cipher.kpos)) =
    some ([(0, 0x00), (1, 0x00), (2, 0x06), (3, 0x2C)], 0xF6353888, 3) := by decide

/-- V-C6: LEN = 0 at the top of BUF. -/
theorem test_cxor_empty : seen (exec .cxor (seeded 0x05 (region 0x1FFFF 0x1FFFF 0 [])))
    (fun t => (t.cipher.lcg, t.cipher.kpos, t.err.errv)) = some (0x00042500, 0, false) := by decide

/-- V-C8, the first byte. -/
theorem test_cbyte : seen (cbyteWith instC 0x41 (seeded 0x00 .reset)) (fun t => (t.out, t.cipher.lcg, t.cipher.kpos)) =
    some (0x40, 0x0000D434, 1) := by decide

/-- V-C8, the second byte. -/
theorem test_cbyte_second : seen (cbyteWith instC 0x00
    { State.reset with cipher := { lcg := 0x0000D434, kpos := 1, seeded := true } })
    (fun t => (t.out, t.cipher.lcg, t.cipher.kpos)) = some (0x25, 0xAFE5565D, 2) := by decide

/-- V-C4: nine bytes, so that the position passes 7. -/
theorem test_capply : seen (capplyWith instC 0x5A (region 0 0 9
    [(0, 0x48), (1, 0x65), (2, 0x6C), (3, 0x6C), (4, 0x6F), (5, 0x21), (6, 0x21), (7, 0x21), (8, 0x58)]))
    (fun t => (t.buf.map (fun c => c.2), t.cipher.lcg, t.cipher.kpos)) =
    some ([0x1D, 0xF2, 0x8E, 0xB0, 0x69, 0x51, 0x84, 0x85, 0x11], 0xE3EBEBEE, 1) := by decide

/-- V-C10: the top byte of BUF. -/
theorem test_capply_top : seen (capplyWith instC 0x11 (region 0x1FFFF 0x1FFFF 1 [(0x1FFFF, 0xAA)]))
    (fun t => (t.buf, t.cipher.lcg, t.cipher.kpos)) = some ([(0x1FFFF, 0xDB)], 0xAE2D78ED, 1) := by decide

/-- V-N2, V-N3: CLR leaves the region registers, BUF and the error record. -/
theorem test_clr : seen (exec .clr ({ seeded 0x5A (initialised 1 2 (region 3 4 5 [(7, 0x11)])) with
      out := 0x40, err := { errv := true, errc := 1 } })) id =
    some { region 3 4 5 [(7, 0x11)] with err := { errv := true, errc := 1 } } := by decide

/-- 95_test_vectors.md 2.7: which code each refused command records. -/
theorem test_error_priority :
    seen (exec .sfeed (region 0x1FFFF 0 5 [])) State.statusWord = some 0x00000038 ∧
    seen (exec .sum32 (region 0x1FFFF 0 0 [])) State.statusWord = some 0x00000048 ∧
    seen (exec .cxor (region 0 0x1FFFF 4 [])) State.statusWord = some 0x00000028 ∧
    seen (exec (.capply 0x01) (region 0 0x1FFFE 3 [(0, 0x01)])) (fun t => (t.statusWord, t.cipher.lcg)) =
      some (0x00000058, 0) ∧
    seen (exec .sfeed (initialised 1 2 (region 0x1FFFF 0 2 []))) (fun t => (t.statusWord, t.sidxWord)) =
      some (0x0000005A, 0x00000201) ∧
    seen (access (.write 4 0x000 0x0FFFFFFF) .reset) State.statusWord = some 0x00000018 := by decide

/-- 95_test_vectors.md 2.7: which unwritten byte the fault names. -/
theorem test_unwritten :
    faultOf (exec .cxor (seeded 0 (region 0 0x10 1 []))) = some (.uninitRead 0) ∧
    faultOf (exec .sinit (region 0 0 3 [(0, 0x01)])) = some (.uninitRead 1) := by decide

/-- 95_test_vectors.md 2.6. -/
theorem test_bus :
    faultOf (access (.write 2 0x20001 0x1234) .reset) = some .busError ∧
    faultOf (access (.write 1 0x008 1) .reset) = some .busError ∧
    faultOf (access (.read 4 0x028) .reset) = some .busError ∧
    faultOf (access (.read 4 0x100) .reset) = some .busError ∧
    faultOf (access (.read 1 0x20010) .reset) = some (.uninitRead 0x10) ∧
    seen (accessAll [.write 4 0x014 0x12345678, .read 4 0x014] .reset) State.readLog = some [0x00000000] ∧
    seen (accessAll [.write 4 0x008 0xFFFFFFFF, .read 4 0x008] .reset) State.readLog = some [0x0001FFFF] ∧
    seen (accessAll [.write 4 0x010 0xFFFFFFFF, .read 4 0x010] .reset) State.readLog = some [0x0003FFFF] ∧
    seen (accessAll [.write 4 0x20004 0x11223344, .read 2 0x20006, .read 1 0x20004] .reset) State.readLog =
      some [0x11, 0x3344] := by decide

/-- 95_test_vectors.md 2.6: clearing the record. -/
theorem test_status_clears :
    seen (accessAll [.write 4 0x000 0xC0000000, .write 4 0x004 0x7, .read 4 0x004] .reset) State.readLog =
      some [0x00000018] ∧
    seen (accessAll [.write 4 0x000 0xC0000000, .write 4 0x004 0xFFFFFFFF, .read 4 0x004] .reset) State.readLog =
      some [0x00000000] := by decide

/-- R89: assertions on a register and on BUF, met and not met. -/
theorem test_assertions :
    (Assertion.reg .len 2).holds (region 0 0 2 [(0, 0x9C), (1, 0x3F)]) = true ∧
    (Assertion.buf 0 1 [0x9C, 0x3F]).holds (region 0 0 2 [(0, 0x9C), (1, 0x3F)]) = true ∧
    (Assertion.buf 0 1 [0x9C, 0x3E]).holds (region 0 0 2 [(0, 0x9C), (1, 0x3F)]) = false ∧
    (Assertion.buf 0 2 [0x9C, 0x3F, 0x00]).holds (region 0 0 2 [(0, 0x9C), (1, 0x3F)]) = false := by decide

/-- V-K1, V-K3: the first keystream bytes of key 0, and truncation. -/
theorem test_keystream :
    (List.range 5).map (fun n => keystreamByte (lcgNext^[n] (lcgSeed 0x00))) = [0x00, 0x06, 0x2A, 0xA9, 0x57] ∧
    lcgNext 0x80000000 = 0x80000001 ∧ lcgNext 0xFFFFFFFF = 0xFFFF2BCE := by decide

/-- Program P3: the wire bytes of the unit "SVR", count 1, payload 01 02 03, key 0. -/
theorem test_wire :
    checksum32 instC [0x01, 0x02, 0x03] = some 0x01020300 ∧
    wireBytes instC 0x00 { serverType := ⟨0x53, 0x56, 0x52⟩, entryCount := 1, bodySize := 3, checksum := 0x01020300 }
      [0x01, 0x02, 0x03] =
      [0x00, 0x52, 0x73, 0x4C, 0xEC, 0x00, 0x74, 0x61, 0x8A, 0xD8, 0x15, 0x65, 0x5C, 0x86, 0x11] := by decide

/-! Witnesses: for each obligation with hypotheses, concrete values that meet them, clause by clause. -/

/-- A region of two written bytes at the top of BUF: `SRC + LEN = BUF_BYTES` exactly. -/
def topState : State := region 0x1FFFE 0x1FFFE 2 [(0x1FFFE, 0xAA), (0x1FFFF, 0xBB)]

/-- The same registers one byte longer: `SRC + LEN = BUF_BYTES + 1`. -/
def overState : State := region 0x1FFFE 0x1FFFE 3 [(0x1FFFE, 0xAA), (0x1FFFF, 0xBB)]

/-- Two written bytes to another place. -/
def apartState : State := region 0 2 2 [(0, 0x10), (1, 0x20)]

theorem topState_holds : topState.buf.holds topState.src.toNat [0xAA, 0xBB] := by unfold Memory.holds; decide
theorem apartState_holds : apartState.buf.holds apartState.src.toNat [0x10, 0x20] := by unfold Memory.holds; decide

theorem witness_DecodeOfEncodeIsTheCommand : (Instr.sinitx 0xFF 0x00).wellFormed = true := by decide

theorem witness_EncodeOfDecodeIsTheWord : decode 0x900000FF = .ok (.capply 0xFF) := by decide

theorem witness_WordSelectsAtMostOneRow :
    decode 0x2000FFFF = .ok (.sinitx 0xFF 0xFF) ∧ decode 0x400000FF = .ok (.sbyte 0xFF) ∧
    decode 0x60000000 = .ok (.cseed 0x00) ∧ decode 0x800000FF = .ok (.cbyte 0xFF) ∧
    decode 0x90000000 = .ok (.capply 0x00) ∧
    ∃ r ∈ opcodeMap, r.selects 0x2000FFFF = true := by decide

/-- Each clause at its ends: OP 0xB and 0xF, the lowest and the highest must-be-0 bit of each format. -/
theorem witness_ReservedWordsOnlyRecordIllegal :
    11 ≤ ((0xB0000000 : Word).extractLsb' 28 4).toNat ∧ 11 ≤ ((0xFFFFFFFF : Word).extractLsb' 28 4).toNat ∧
    (∀ w ∈ ([0x00000001, 0x08000000, 0xA0000001, 0xA8000000] : List Word),
      (w.extractLsb' 28 4).toNat ∈ [0, 1, 3, 5, 7, 10] ∧ w.extractLsb' 0 28 ≠ 0) ∧
    (∀ w ∈ ([0x40000100, 0x48000000, 0x90000100, 0x98000000] : List Word),
      (w.extractLsb' 28 4).toNat ∈ [4, 6, 8, 9] ∧ w.extractLsb' 8 20 ≠ 0) ∧
    (∀ w ∈ ([0x20010000, 0x28000000] : List Word), (w.extractLsb' 28 4).toNat = 2 ∧ w.extractLsb' 16 12 ≠ 0) := by
  refine ⟨by decide, by decide, ?_, ?_, ?_⟩ <;> intro w hw <;> fin_cases hw <;> decide

theorem witness_StepPerformsTheDecodedCommand :
    (topState.withFetchWord 32 0x70000000).pending = .write 4 0x000 0x70000000 :: [] ∧
    decode 0x70000000 = .ok .cxor ∧ Instr.cxor.wellFormed = true := by decide

theorem witness_IdleStatePersists : topState.pending = [] := by decide

theorem witness_CmdWritePerformsAndReadsZero :
    decode 0x70000000 = .ok .cxor ∧ decode 0xB0000000 = .error .reservedOp := by decide

theorem witness_RegisterMapReadsAsListed :
    (0x024, topState.out.setWidth 32) ∈
      ([(0x000, 0), (0x008, topState.src.setWidth 32), (0x024, topState.out.setWidth 32)] : List (BitVec 18 × Word)) ∧
    access (.read 4 0x004) topState = .next { topState with readLog := topState.statusWord :: topState.readLog } ∧
    (0x024 : BitVec 18) ∈ ([0x014, 0x018, 0x01C, 0x020, 0x024] : List (BitVec 18)) ∧
    0x028 ≤ (0x028 : BitVec 18).toNat ∧ (0x0FC : BitVec 18).toNat ≤ 0x0FF := by
  refine ⟨by decide, rfl, by decide, by decide, by decide⟩

theorem witness_StatusReadsItsFieldsAndClearsByBit3 :
    (0x00000008 : Word).getLsbD 3 = true ∧ (0xFFFFFFF7 : Word).getLsbD 3 = false := by decide

theorem witness_RegionRegistersKeepLowBits : exec .nop topState = .next topState := rfl

/-- The last aligned access of each width. -/
theorem witness_BufferAccessesAreBigEndian :
    (4 ∈ [1, 2, 4] ∧ 131068 % 4 = 0 ∧ 131068 < bufBytes) ∧ (2 ∈ [1, 2, 4] ∧ 131070 % 2 = 0 ∧ 131070 < bufBytes) ∧
    (1 ∈ [1, 2, 4] ∧ 131071 % 1 = 0 ∧ 131071 < bufBytes) ∧ (131070 = 0x1FFFE ∧ [0xAA, 0xBB].length = 2) := by decide

/-- A 4-byte read of one byte written before and three unwritten ones covers a 2-byte write. -/
theorem witness_MixedWidthReadsAreExact :
    2 ∈ [1, 2, 4] ∧ 4 ∈ [1, 2, 4] ∧ 2 % 2 = 0 ∧ 0 % 4 = 0 ∧ 2 < bufBytes ∧ 0 < bufBytes ∧
    (∃ t, access (.write 2 (BitVec.ofNat 18 (0x20000 + 2)) 0x1234) apartState = .next t) ∧
    ∀ j, j < 4 → apartState.buf.written (0 + j) ∨ (2 ≤ 0 + j ∧ 0 + j < 2 + 2) := by
  refine ⟨by decide, by decide, by decide, by decide, by decide, by decide, ⟨_, rfl⟩, ?_⟩
  unfold Memory.written
  decide

theorem witness_HostReadOfUnwrittenByteFaults :
    4 ∈ [1, 2, 4] ∧ 0 % 4 = 0 ∧ 0 < bufBytes ∧ 2 < 4 ∧ (∀ i, i < 2 → apartState.buf.written (0 + i)) ∧
    ¬ apartState.buf.written (0 + 2) := by
  unfold Memory.written
  decide

theorem witness_HostAccessesLeaveTheEngine :
    (∃ t, access (.read 2 0x3FFFE) topState = .next t) ∧ (∃ t, access (.write 4 0x004 0xFFFFFFFF) topState = .next t) ∧
    (∃ t, access (.write 1 0x3FFFF 0) topState = .next t) ∧ (0x004 : BitVec 18) ≠ 0x000 ∧
    (0x3FFFF : BitVec 18) ≠ 0x004 ∧ (0x004 : BitVec 18).toNat < 0x20000 ∧ 0x20000 ≤ (0x3FFFF : BitVec 18).toNat :=
  ⟨⟨_, rfl⟩, ⟨_, rfl⟩, ⟨_, rfl⟩, by decide, by decide, by decide, by decide⟩

/-- The first address above the aperture. -/
theorem witness_HostAddressesMapToOffsets :
    Config.blockBase + 0x40000 < Config.blockBase ∨ Config.blockBase + 0x40000 ≤ Config.blockBase + 0x40000 :=
  .inr (Nat.le_refl _)

theorem witness_PseudoInstructionsComputeTheSourceFunctions :
    0x1FFFE + [0xAA, 0xBB].length ≤ 131072 ∧ 0x1FFFE = 0x1FFFE ∧ topState.buf.holds 0x1FFFE [0xAA, 0xBB] ∧
    ([0xAA, 0xBB] : List Byte) ≠ [] := ⟨by decide, rfl, topState_holds, by decide⟩

theorem witness_ErrorsAreTabledPreciseAndPrioritised :
    decode 0xB0000000 = .error .reservedOp ∧ commandError overState .sinit = some .range ∧
    commandError topState .sfeed = some .nosinit ∧ commandError topState .cxor = some .noseed ∧
    commandError .reset .sum32 = some .empty ∧ commandError topState .sinit = none ∧
    ∃ t, exec .sinit topState = .next t :=
  ⟨by decide, by decide, by decide, by decide, by decide, by decide, ⟨_, rfl⟩⟩

theorem witness_RecordDoesNotChangeWhatCommandsDo :
    (∃ t, exec .sinit (topState.withErr { errv := true, errc := 5 }) = .next t) ∧
    exec .sinit ((region 0 0 3 []).withErr { errv := true, errc := 5 }) = .fault (.uninitRead 1) := ⟨⟨_, rfl⟩, rfl⟩

theorem witness_RecordClearedOnlyByStatusWriteOrReset :
    (topState.withErr { errv := true, errc := 5 }).err.errv = true ∧
    (∃ t, access (.write 4 0x004 0x8) (topState.withErr { errv := true, errc := 5 }) = .next t) ∧
    (∃ t, access (.write 4 0x004 0x7) (topState.withErr { errv := true, errc := 5 }) = .next t) :=
  ⟨rfl, ⟨_, rfl⟩, ⟨_, rfl⟩⟩

/-- SINIT: empty; one byte too long; the longest region that fits, its middle byte written, and unwritten. -/
theorem witness_SinitInitialisesFromTheRegion :
    State.reset.len = 0 ∧ (overState.len ≠ 0 ∧ 131072 < overState.src.toNat + overState.len.toNat) ∧
    (topState.len ≠ 0 ∧ topState.src.toNat + topState.len.toNat ≤ 131072) ∧
    topState.buf.read (topState.src.toNat + topState.len.toNat / 2) = some 0xBB ∧
    ((region 0 0 0x20000 []).src.toNat + (region 0 0 0x20000 []).len.toNat ≤ 131072) ∧
    (region 0 0 0x20000 []).buf.read (0 + 0x20000 / 2) = none := by decide

theorem witness_SbyteFeedsOneByte :
    topState.checksum.sinit = false ∧ (initialised 1 0xFF topState).checksum.sinit = true := by decide

/-- SFEED: uninitialised; one byte too long; a written region to the top; the second byte unwritten. -/
theorem witness_SfeedFeedsTheRegionInOrder :
    topState.checksum.sinit = false ∧
    ((initialised 1 2 overState).checksum.sinit = true ∧ 131072 < overState.src.toNat + overState.len.toNat) ∧
    ((initialised 1 2 topState).src.toNat + (initialised 1 2 topState).len.toNat ≤ 131072) ∧
    (initialised 1 2 topState).sourceWritten ∧
    (1 < (region 0 0 2 [(0, 0x01)]).len.toNat ∧ (∀ j, j < 1 → (region 0 0 2 [(0, 0x01)]).buf.written (0 + j)) ∧
      ¬ (region 0 0 2 [(0, 0x01)]).buf.written (0 + 1)) := by
  unfold State.sourceWritten Memory.written
  decide

/-- SUM32: empty; one byte too long; a written region to the top; the middle byte unwritten; the middle byte written and
the first unwritten. -/
theorem witness_Sum32ChecksThenReadsMiddleFirst :
    State.reset.len = 0 ∧ (overState.len ≠ 0 ∧ 131072 < overState.src.toNat + overState.len.toNat) ∧
    (topState.len ≠ 0 ∧ topState.src.toNat + topState.len.toNat ≤ 131072 ∧ topState.sourceWritten) ∧
    ¬ (region 0 0 3 [(0, 0x01)]).buf.written (0 + 3 / 2) ∧
    ((region 0 0 3 [(1, 0x01)]).buf.written (0 + 3 / 2) ∧ ¬ (region 0 0 3 [(1, 0x01)]).buf.written (0 + 0)) := by
  unfold State.sourceWritten Memory.written
  decide

theorem witness_Sum32ComputesChecksum32 :
    topState.len ≠ 0 ∧ topState.src.toNat + topState.len.toNat ≤ 131072 ∧
    ([0xAA, 0xBB] : List Byte).length = topState.len.toNat ∧ topState.buf.holds topState.src.toNat [0xAA, 0xBB] ∧
    State.reset.len = 0 ∧ 131072 < overState.src.toNat + overState.len.toNat :=
  ⟨by decide, by decide, by decide, topState_holds, by decide, by decide⟩

/-- The hypotheses of Sum32LanesAreSumsOfMaskedBytes and of StreamingEqualsSum32. -/
theorem witness_Sum32LanesAndStreaming :
    ([0xAA, 0xBB] : List Byte) ≠ [] ∧ ([0xAA, 0xBB] : List Byte).length = topState.len.toNat ∧
    topState.src.toNat + topState.len.toNat ≤ 131072 ∧ topState.buf.holds topState.src.toNat [0xAA, 0xBB] ∧
    ([0xAA, 0xBB] : List Byte)[2 / 2]? = some 0xBB :=
  ⟨by decide, by decide, by decide, topState_holds, by decide⟩

theorem witness_SfeedSplits :
    (initialised 5 6 apartState).checksum.sinit = true ∧
    ∃ s1 s2 : State, s1.checksum = (initialised 5 6 apartState).checksum ∧
      s1.src.toNat + s1.len.toNat ≤ 131072 ∧ s1.len.toNat = ([0x10] : List Byte).length ∧
      s1.buf.holds s1.src.toNat [0x10] ∧ s2.src.toNat + s2.len.toNat ≤ 131072 ∧
      s2.len.toNat = ([0x20] : List Byte).length ∧ s2.buf.holds s2.src.toNat [0x20] ∧
      apartState.len.toNat = ([0x10] : List Byte).length + ([0x20] : List Byte).length ∧
      apartState.buf.holds apartState.src.toNat ([0x10] ++ [0x20]) := by
  refine ⟨rfl, initialised 5 6 (region 7 0 1 [(7, 0x10)]), region 0x1FFFF 0 1 [(0x1FFFF, 0x20)], rfl, by decide,
    by decide, ?_, by decide, by decide, ?_, by decide, apartState_holds⟩
  · unfold Memory.holds; decide
  · unfold Memory.holds; decide

/-- Two regions with one length and middle byte that agree at the positions 1 mod 4 and differ elsewhere. -/
theorem witness_LaneDependsOnItsOwnPositions :
    ∃ s s' t t' : State, s.len = s'.len ∧ exec .sum32 s = .next t ∧ exec .sum32 s' = .next t' ∧
      commandError s .sum32 = none ∧ commandError s' .sum32 = none ∧
      s.buf.read (s.src.toNat + s.len.toNat / 2) = s'.buf.read (s'.src.toNat + s.len.toNat / 2) ∧
      (∀ i, i < s.len.toNat → i % 4 = (1 : BitVec 2).toNat →
        s.buf.read (s.src.toNat + i) = s'.buf.read (s'.src.toNat + i)) ∧ s.buf ≠ s'.buf :=
  ⟨apartState, region 0 2 2 [(0, 0x11), (1, 0x20)], _, _, rfl, rfl, rfl, by decide, by decide, by decide, by decide,
    by decide⟩

theorem witness_IndexModesAgreeBelow256 :
    (List.replicate 127 (0x00 : Byte))[127 / 2]? = some 0x00 ∧ 127 % 256 + 127 ≤ 255 ∧ (0x00 : Byte).toNat + 127 ≤ 255 ∧
    (List.replicate 127 (0x00 : Byte)).length = 127 := ⟨by rw [List.getElem?_replicate]; rfl, by decide, by decide, by simp⟩

theorem witness_CbyteEnciphersIntoOut :
    topState.cipher.seeded = false ∧ (seeded 0xFF topState).cipher.seeded = true := by decide

/-- CXOR: unseeded; source one byte too long; destination too long; a run to the top; an overlapping run whose second
source byte only the command itself writes; a first and a second byte unwritten. -/
theorem witness_CxorRunsByteByByte :
    topState.cipher.seeded = false ∧
    ((seeded 1 overState).cipher.seeded = true ∧ 131072 < overState.src.toNat + overState.len.toNat) ∧
    131072 < (region 0 0x1FFFF 2 []).dst.toNat + (region 0 0x1FFFF 2 []).len.toNat ∧
    ((seeded 1 topState).cipher.seeded = true ∧ topState.src.toNat + topState.len.toNat ≤ 131072 ∧
      topState.dst.toNat + topState.len.toNat ≤ 131072 ∧ (seeded 1 topState).keystreamSourceWritten) ∧
    (seeded 1 (region 0 1 3 [(0, 0x00)])).keystreamSourceWritten ∧
    (¬ (seeded 1 (region 0 8 1 [])).keystreamByteWritten 0) ∧
    ((seeded 1 (region 0 8 2 [(0, 0x01)])).keystreamByteWritten 0 ∧
      ¬ (seeded 1 (region 0 8 2 [(0, 0x01)])).keystreamByteWritten 1) := by
  unfold State.keystreamSourceWritten State.keystreamByteWritten Memory.written
  decide

theorem witness_CapplyChecksBeforeSeeding :
    131072 < overState.src.toNat + overState.len.toNat ∧
    (topState.src.toNat + topState.len.toNat ≤ 131072 ∧ topState.dst.toNat + topState.len.toNat ≤ 131072 ∧
      topState.keystreamSourceWritten) ∧
    ((region 0 8 2 [(0, 0x01)]).keystreamByteWritten 0 ∧ ¬ (region 0 8 2 [(0, 0x01)]).keystreamByteWritten 1) := by
  unfold State.keystreamSourceWritten State.keystreamByteWritten Memory.written
  decide

/-- In place at the top of BUF, and between two regions that touch. -/
theorem witness_CapplyComputesApply :
    131072 < overState.src.toNat + overState.len.toNat ∧
    (([0xAA, 0xBB] : List Byte).length = topState.len.toNat ∧ topState.src.toNat + topState.len.toNat ≤ 131072 ∧
      topState.dst.toNat + topState.len.toNat ≤ 131072 ∧ topState.regionsSound ∧
      topState.buf.holds topState.src.toNat [0xAA, 0xBB]) ∧
    (([0x10, 0x20] : List Byte).length = apartState.len.toNat ∧ apartState.regionsSound ∧
      apartState.buf.holds apartState.src.toNat [0x10, 0x20]) :=
  ⟨by decide, ⟨by decide, by decide, by decide, .inl rfl, topState_holds⟩,
    ⟨by decide, .inr (.inl (by decide)), apartState_holds⟩⟩

theorem witness_RunContinuesAcrossCommands :
    { apartState with cipher := CipherState.atPosition 0x5A 9 }.cipher = CipherState.atPosition 0x5A 9 ∧
    ([0x10, 0x20] : List Byte).length = apartState.len.toNat ∧ apartState.src.toNat + apartState.len.toNat ≤ 131072 ∧
    apartState.dst.toNat + apartState.len.toNat ≤ 131072 ∧ apartState.regionsSound ∧
    apartState.buf.holds apartState.src.toNat [0x10, 0x20] :=
  ⟨rfl, by decide, by decide, by decide, .inr (.inl (by decide)), apartState_holds⟩

/-- Two empty runs, the second after the first: the hypotheses on `s2` and `u1` together. -/
theorem witness_TwoCxorsEqualOneApply :
    ∃ s1 t1 s2 u1 : State, exec (.cseed 0x5A) s1 = .next t1 ∧ exec .cxor t1 = .next u1 ∧
      ([0x10, 0x20] : List Byte).length = s1.len.toNat ∧ s1.src.toNat + s1.len.toNat ≤ 131072 ∧
      s1.dst.toNat + s1.len.toNat ≤ 131072 ∧ s1.regionsSound ∧ s1.buf.holds s1.src.toNat [0x10, 0x20] ∧
      ([0x20] : List Byte).length = s2.len.toNat ∧ s2.src.toNat + s2.len.toNat ≤ 131072 ∧
      s2.dst.toNat + s2.len.toNat ≤ 131072 ∧ s2.regionsSound ∧ s2.cipher = u1.cipher ∧ s2.buf = u1.buf ∧
      s2.buf.holds s2.src.toNat [0x20] := by
  refine ⟨apartState, _, { seeded 0x5A apartState with src := 1, dst := 8, len := 1, cipher := _, buf := _ }, _, rfl, rfl,
    by decide, by decide, by decide, .inr (.inl (by decide)), apartState_holds, by decide, by decide, by decide,
    .inr (.inl (by decide)), rfl, rfl, ?_⟩
  intro i hi
  obtain rfl : i = 0 := by simpa using hi
  rfl

theorem witness_CapplyTwiceRestores :
    ([0x10, 0x20] : List Byte).length = apartState.len.toNat ∧ apartState.src.toNat + apartState.len.toNat ≤ 131072 ∧
    apartState.dst.toNat + apartState.len.toNat ≤ 131072 ∧
    (0x1FFFE : BitVec 17).toNat + apartState.len.toNat ≤ 131072 ∧ apartState.regionsSound ∧
    ((apartState.withSrc apartState.dst).withDst 0x1FFFE).regionsSound ∧
    apartState.buf.holds apartState.src.toNat [0x10, 0x20] :=
  ⟨by decide, by decide, by decide, by decide, .inr (.inl (by decide)), .inr (.inl (by decide)), apartState_holds⟩

theorem witness_CommandFrame :
    (∃ t, exec (.sbyte 1) (initialised 1 2 topState) = .next t) ∧ (∃ t, exec .cxor (seeded 1 topState) = .next t) ∧
    Instr.sum32 ∈ [Instr.nop, .sinit, .sfeed, .sum32] ∧ Instr.cxor ∈ [Instr.nop, .cxor] :=
  ⟨⟨_, rfl⟩, ⟨_, rfl⟩, by decide, by decide⟩

theorem witness_GuardFlagsFollowSeedInitialiseAndClear :
    (∃ t, exec (.capply 1) topState = .next t) ∧ (∃ t, exec .sum32 topState = .next t) ∧
    (∃ t, access (.write 4 0x008 0) topState = .next t) ∧ Event.write 4 0x008 0 ≠ .reset ∧
    (∀ w i, decode w = .ok i → Event.write 4 0x008 0 ≠ .write 4 0x000 w) ∧
    (∃ t, access (.write 4 0x000 0xB0000000) topState = .next t) ∧ Event.write 4 0x000 0xB0000000 ≠ .reset ∧
    (∀ w i, decode w = .ok i → Event.write 4 0x000 0xB0000000 ≠ .write 4 0x000 w) ∧
    ∃ t, access .reset topState = .next t := by
  refine ⟨⟨_, rfl⟩, ⟨_, rfl⟩, ⟨_, rfl⟩, by decide, fun w i _ h => (by cases h), ⟨_, rfl⟩, by decide, fun w i hd h => ?_,
    ⟨_, rfl⟩⟩
  cases h
  cases hd

theorem witness_CipherAndChecksumAreDisjoint :
    (∃ t, exec .sum32 topState = .next t) ∧ (∃ t, exec (.capply 1) topState = .next t) ∧
    Instr.sum32 ∈ [Instr.sinit, .sfeed, .sum32] := ⟨⟨_, rfl⟩, ⟨_, rfl⟩, by decide⟩

theorem witness_WholeCommandsForgetTheEngineState :
    ∃ s' t t' : State, topState.buf = s'.buf ∧ topState.src = s'.src ∧ topState.dst = s'.dst ∧ topState.len = s'.len ∧
      topState.cipher ≠ s'.cipher ∧ commandError topState .sum32 = none ∧ exec .sum32 topState = .next t ∧
      commandError topState (.capply 1) = none ∧ exec (.capply 1) topState = .next t' :=
  ⟨seeded 1 topState, _, _, rfl, rfl, rfl, rfl, by decide, by decide, rfl, by decide, rfl⟩

theorem witness_EveryStepKeepsTheInvariant : State.reset.Inv ∧ ∃ t, step (State.reset.withFetchWord 32 0x6000005A) = .next t ∧
    State.Inv (State.reset.withFetchWord 32 0x6000005A) := by
  have h : ∀ es, State.Inv (State.reset.withPending es) := by
    intro es
    refine ⟨⟨List.Pairwise.nil, fun c hc => by cases hc⟩, ⟨fun _ => rfl, fun h => by cases h⟩, ?_, ?_,
      fun _ => ⟨rfl, rfl⟩, fun _ => rfl⟩
    · show idxFits _ 0
      unfold idxFits; split <;> simp
    · show idxFits _ 0
      unfold idxFits; split <;> simp
  exact ⟨h [], ⟨_, rfl, h _⟩⟩

theorem witness_WireBytesAreOneKeystreamRun :
    (({ serverType := ⟨0x53, 0x56, 0x52⟩, entryCount := 1, bodySize := 1, checksum := 0x5A000000 } : Header).plain ++
      [0x5A])[11]? = some 0x5A := by decide

/-- The shortest and the longest payload. -/
theorem witness_WritePartLeavesTheWireBytes :
    (1 ≤ 1 ∧ 1 ≤ 65535 ∧ 131059 + 12 + 1 ≤ 131072) ∧ (1 ≤ 65535 ∧ 65535 ≤ 65535 ∧ 0 + 12 + 65535 ≤ 131072) := by decide

theorem witness_WritePartReportsInvariantViolation : 131060 + 12 ≤ 131072 ∧ 65535 < (List.replicate 65536 (0 : Byte)).length := by
  rw [List.length_replicate]
  decide

/-- A header and payload of one byte, wire bytes in BUF, scratch area beside them. -/
theorem witness_ReadPartDecodesWireBytes :
    ∃ (h : Header) (s : State), h.bodySize.toNat = ([0x5A] : List Byte).length ∧
      badAreas 0 (12 + ([0x5A] : List Byte).length) 13 = false ∧
      s.buf.holds 0 (wireBytes Config.params 0 h [0x5A]) := by
  refine ⟨{ serverType := ⟨0x53, 0x56, 0x52⟩, entryCount := 0, bodySize := 1, checksum := 0x5A000000 },
    { State.reset with buf := (List.range 13).zip (wireBytes Config.params 0 { serverType := ⟨0x53, 0x56, 0x52⟩, entryCount := 0, bodySize := 1, checksum := 0x5A000000 } [0x5A]) }, by decide, by decide, ?_⟩
  intro i hi
  have hi : i < 13 := hi
  interval_cases i <;> rfl

/-- Too short at all; and a header that declares more than stands there. -/
theorem witness_ReadPartReportsTruncated :
    11 < 12 ∧ ∃ (h : Header) (s : State), ([] : List Byte).length < h.bodySize.toNat ∧
      badAreas 0 (12 + ([] : List Byte).length) 12 = false ∧ s.buf.holds 0 (wireBytes Config.params 0 h []) := by
  refine ⟨by decide, { serverType := ⟨0x53, 0x56, 0x52⟩, entryCount := 0, bodySize := 3, checksum := 0 },
    { State.reset with buf := (List.range 12).zip (wireBytes Config.params 0 { serverType := ⟨0x53, 0x56, 0x52⟩, entryCount := 0, bodySize := 3, checksum := 0 } []) }, by decide, by decide, ?_⟩
  intro i hi
  have hi : i < 12 := hi
  interval_cases i <;> rfl

/-- The longest payload with the scratch area after it, and the shortest at the top of BUF with it before. -/
theorem witness_FramingRoundTrip :
    badAreas 0 (12 + 65535) 65547 = false ∧ badAreas 131059 (12 + 1) 131048 = false := by decide

end Sys2Proof.Tests
end

/-! The family of 00_scope.md: the derived functions of R14, the involution of R19, the two index modes of R10, and the
invariant of the block, kept update by update, command by command and access by access. -/

namespace Sys2Proof.Machine

/-! The invariant under each update of the state (R26, R27, R31, R40, R200). -/

namespace State.Inv

variable {s : State}

/-- What the invariant says is said of BUF, the error record and the two engine states only. -/
theorem congr {t : State} (h : s.Inv) (hbuf : t.buf = s.buf) (herr : t.err = s.err) (hck : t.checksum = s.checksum)
    (hci : t.cipher = s.cipher) (hout : t.out = s.out) : t.Inv where
  bufWf := hbuf ▸ h.bufWf
  errLegal := herr ▸ h.errLegal
  t0Fits := hck ▸ h.t0Fits
  t1Fits := hck ▸ h.t1Fits
  unseededCleared := by rw [hci, hout]; exact h.unseededCleared
  uninitialisedCleared := by rw [hck]; exact h.uninitialisedCleared

theorem withSrc (h : s.Inv) (a : BitVec 17) : (s.withSrc a).Inv := h.congr rfl rfl rfl rfl rfl
theorem withDst (h : s.Inv) (a : BitVec 17) : (s.withDst a).Inv := h.congr rfl rfl rfl rfl rfl
theorem withLen (h : s.Inv) (n : BitVec 18) : (s.withLen n).Inv := h.congr rfl rfl rfl rfl rfl
theorem withPending (h : s.Inv) (es : List Event) : (s.withPending es).Inv := h.congr rfl rfl rfl rfl rfl
theorem withReadLog (h : s.Inv) (ws : List Word) : (s.withReadLog ws).Inv := h.congr rfl rfl rfl rfl rfl

/-- A legal record may replace the record (R200). -/
theorem withErr (h : s.Inv) {r : ErrorRecord} (hr : r.legal) : (s.withErr r).Inv := { h with errLegal := hr }

theorem recorded (h : s.Inv) (e : ErrCode) : (s.recorded e).Inv := { h with errLegal := s.recorded_legal e h.errLegal }

/-- A memory in canonical form may replace BUF (R40). -/
theorem withBuf (h : s.Inv) {m : Memory} (hm : m.wf) : (s.withBuf m).Inv := { h with bufWf := hm }

/-- An initialised checksum state with indices of the mode's width may replace the checksum state (R27, R31). -/
theorem withChecksum (h : s.Inv) {c : ChecksumState} (hc : c.sinit = true)
    (h0 : idxFits Config.params.idxMode c.t0i) (h1 : idxFits Config.params.idxMode c.t1i) : (s.withChecksum c).Inv :=
  { h with
    t0Fits := h0
    t1Fits := h1
    uninitialisedCleared := fun hn => absurd (hn.symm.trans hc) Bool.false_ne_true }

/-- A seeded cipher state may replace the cipher state (R26). -/
theorem withCipher (h : s.Inv) {c : CipherState} (hc : c.seeded = true) : (s.withCipher c).Inv :=
  { h with unseededCleared := fun hn => absurd (hn.symm.trans hc) Bool.false_ne_true }

/-- While the keystream is seeded, OUT is free (R26). -/
theorem withOut (h : s.Inv) (hs : s.cipher.seeded = true) (b : Byte) : (s.withOut b).Inv :=
  { h with unseededCleared := fun hn => absurd (hn.symm.trans hs) Bool.false_ne_true }

/-- Both engines and OUT as reset leaves them (R163). -/
theorem cleared (h : s.Inv) :
    (((s.withCipher CipherState.cleared).withChecksum ChecksumState.cleared).withOut 0).Inv :=
  { h with
    t0Fits := idxFits_of_lt _ (by decide : 0 < 256)
    t1Fits := idxFits_of_lt _ (by decide : 0 < 256)
    unseededCleared := fun _ => ⟨rfl, rfl⟩
    uninitialisedCleared := fun _ => rfl }

/-- Feeding an initialised checksum keeps the width of its indices (R27, R106). -/
theorem withChecksum_feedAll (h : s.Inv) {c : ChecksumState} (hc : c.sinit = true)
    (h0 : idxFits Config.params.idxMode c.t0i) (h1 : idxFits Config.params.idxMode c.t1i) (bs : List Byte) :
    (s.withChecksum (c.feedAll Config.params bs)).Inv := by
  obtain ⟨h0', h1'⟩ := c.feedAll_fits Config.params bs h0 h1
  exact h.withChecksum ((c.feedAll_sinit Config.params bs).trans hc) h0' h1'

/-- The loop of R133 started from a seeded keystream, its destination inside BUF. -/
theorem of_runKeystream {c : CipherState} {t : State} (h : s.Inv) (hc : c.seeded = true)
    (hd : s.dst.toNat + s.len.toNat ≤ bufBytes) (hr : runKeystream Config.params c s = .next t) : t.Inv := by
  obtain ⟨c', m, hloop, rfl⟩ := runKeystream_next hr
  have hc' : c'.seeded = true := by rw [(cipherRegion_spec hloop).1, CipherState.advance_iterate_seeded, hc]
  exact (h.withCipher hc').withBuf (cipherRegion_wf hloop h.bufWf hd)

end State.Inv

/-- The reset state meets the invariant (R45). -/
theorem State.reset_inv : State.reset.Inv where
  bufWf := Memory.nil_wf
  errLegal := ⟨fun _ => rfl, fun h => absurd h Bool.false_ne_true⟩
  t0Fits := idxFits_of_lt _ (by decide : 0 < 256)
  t1Fits := idxFits_of_lt _ (by decide : 0 < 256)
  unseededCleared := fun _ => ⟨rfl, rfl⟩
  uninitialisedCleared := fun _ => rfl

/-- SINIT's checksum state is initialised, with both indices below 256 (R100). -/
theorem State.initialChecksum_bounds {s : State} {c : ChecksumState} (h : s.initialChecksum = .ok c) :
    c.sinit = true ∧ c.t0i < 256 ∧ c.t1i < 256 := by
  obtain ⟨m, -, rfl⟩ := State.initialChecksum_eq_ok.1 h
  exact ⟨rfl, Nat.mod_lt _ (by decide), m.isLt⟩

/-! The invariant along commands and accesses. -/

/-- Every command keeps the invariant. -/
theorem exec_keeps_inv {i : Instr} {s t : State} (hs : s.Inv) (h : exec i s = .next t) : t.Inv := by
  cases i <;> rw [exec] at h
  case nop => cases h; exact hs
  case sinit =>
    obtain ⟨e, rfl⟩ | ⟨c, hc, rfl⟩ := execSinit_next h
    · exact hs.recorded e
    · obtain ⟨hi, h0, h1⟩ := State.initialChecksum_bounds hc
      exact hs.withChecksum hi (idxFits_of_lt _ h0) (idxFits_of_lt _ h1)
  case sinitx t0 t1 =>
    cases h
    exact hs.withChecksum rfl (idxFits_of_lt _ t0.isLt) (idxFits_of_lt _ t1.isLt)
  case sfeed =>
    obtain ⟨e, rfl⟩ | ⟨bs, hi, -, rfl⟩ := sfeedWith_next h
    · exact hs.recorded e
    · exact hs.withChecksum_feedAll hi hs.t0Fits hs.t1Fits bs
  case sbyte d =>
    obtain ⟨e, rfl⟩ | ⟨hi, rfl⟩ := sbyteWith_next h
    · exact hs.recorded e
    · exact hs.withChecksum hi (idxInc_fits _ _) (idxInc_fits _ _)
  case sum32 =>
    obtain ⟨e, rfl⟩ | ⟨c, bs, hc, -, rfl⟩ := sum32With_next h
    · exact hs.recorded e
    · obtain ⟨hi, h0, h1⟩ := State.initialChecksum_bounds hc
      exact hs.withChecksum_feedAll hi (idxFits_of_lt _ h0) (idxFits_of_lt _ h1) bs
  case cseed k => cases h; exact hs.withCipher rfl
  case cxor =>
    obtain ⟨e, rfl⟩ | ⟨hc, hd, hr⟩ := cxorWith_next h
    · exact hs.recorded e
    · exact hs.of_runKeystream hc hd hr
  case cbyte d =>
    obtain ⟨e, rfl⟩ | ⟨hc, rfl⟩ := cbyteWith_next h
    · exact hs.recorded e
    · exact (hs.withOut hc _).withCipher hc
  case capply k =>
    obtain ⟨e, rfl⟩ | ⟨hd, hr⟩ := capplyWith_next h
    · exact hs.recorded e
    · exact hs.of_runKeystream rfl hd hr
  case clr => cases h; exact hs.cleared

/-- A word performed at CMD keeps the invariant, legal or not (R38, R84). -/
theorem performWord_keeps_inv {w : Word} {s t : State} (hs : s.Inv) (h : performWord w s = .next t) : t.Inv := by
  unfold performWord at h
  split at h
  · exact exec_keeps_inv hs h
  · rw [raiseError_eq] at h
    cases h
    exact hs.recorded .illegal

/-- A write to a register other than CMD keeps the invariant (R34 to R37, R39). -/
theorem State.Inv.writeReg {s : State} (hs : s.Inv) (r : Reg) (v : Word) : (s.writeReg r v).Inv := by
  cases r <;> simp only [State.writeReg]
  case src => exact hs.withSrc _
  case dst => exact hs.withDst _
  case len => exact hs.withLen _
  case status =>
    unfold State.writeStatus
    split
    · exact hs.withErr State.reset_inv.errLegal
    · exact hs
  all_goals exact hs

/-- Every host access and the platform's reset keep the invariant (R58, R230). -/
theorem access_keeps_inv {e : Event} {s t : State} (hs : s.Inv) (h : access e s = .next t) : t.Inv := by
  cases e with
  | read width o =>
    obtain ⟨v, rfl⟩ := hostRead_next h
    exact hs.withReadLog _
  | write width o v =>
    obtain ⟨-, -, hp⟩ | ⟨r, -, -, -, rfl⟩ | ⟨a, -, ha, -, rfl⟩ := hostWrite_next h
    · exact performWord_keeps_inv hs hp
    · exact hs.writeReg r v
    · exact hs.withBuf (Memory.memWrite_wf hs.bufWf ha v)
  | reset =>
    cases h
    exact (State.reset_inv.withPending _).withReadLog _

/-- Settles O54: a step is idle, or takes one access, and every access keeps the invariant. -/
theorem everyStepKeepsTheInvariant : Obligations.EveryStepKeepsTheInvariant := by
  intro s t hs h
  unfold step takeNext at h
  split at h
  · cases h; exact hs
  · exact access_keeps_inv (hs.withPending _) h

/-! The two index modes (R10, I2). -/

/-- Below 255 an increment does not wrap, so both modes make the same one (R14). -/
theorem idxInc_eq_of_lt (mode : IdxMode) {t : Nat} (h : t < 255) : idxInc mode t = t + 1 := by
  cases mode
  · exact Nat.mod_eq_of_lt (by omega)
  · rfl

/-- The loop of `checksum32` does not see the index mode as long as neither index passes 255 (I2). -/
theorem checksumFrom_idxMode_irrelevant (p : Params) (a b : IdxMode) (bs : List Byte) (i t0 t1 : Nat) (acc : Lanes)
    (h0 : t0 + bs.length ≤ 255) (h1 : t1 + bs.length ≤ 255) :
    checksumFrom { p with idxMode := a } i t0 t1 acc bs = checksumFrom { p with idxMode := b } i t0 t1 acc bs := by
  induction bs generalizing i t0 t1 acc with
  | nil => rfl
  | cons x bs ih =>
    rw [List.length_cons] at h0 h1
    have inc (mode : IdxMode) : idxInc mode t0 = t0 + 1 ∧ idxInc mode t1 = t1 + 1 :=
      ⟨idxInc_eq_of_lt mode (by omega), idxInc_eq_of_lt mode (by omega)⟩
    simp only [checksumFrom, inc]
    exact ih _ _ _ _ (by omega) (by omega)

/-- Settles O35: the payload is not empty, so both sides are the loop from the same indices, which stay below 256. -/
theorem indexModesAgreeBelow256 : Obligations.IndexModesAgreeBelow256 := by
  intro p bs m hm h0 h1
  simp only [checksum32, hm]
  rw [checksumFrom_idxMode_irrelevant p .wrap8 .unbounded bs _ _ _ _ h0 h1]

/-! The derived functions as arithmetic (R14). -/

theorem lcgNext_toNat (s : Word) : (lcgNext s).toNat = (54323 * s.toNat + 1) % 2 ^ 32 := by
  simp [lcgNext, BitVec.toNat_add, BitVec.toNat_mul]

/-- A seed is the successor of the key byte taken as a word (R14). -/
theorem lcgSeed_eq_lcgNext (k : Byte) : lcgSeed k = lcgNext (k.setWidth 32) := rfl

theorem lcgSeed_toNat (k : Byte) : (lcgSeed k).toNat = (54323 * k.toNat + 1) % 2 ^ 32 := by
  rw [lcgSeed_eq_lcgNext, lcgNext_toNat, BitVec.toNat_setWidth_of_le (by decide)]

/-- The keystream byte is bits 20 to 13 (R14). -/
theorem keystreamByte_toNat (s : Word) : (keystreamByte s).toNat = (s.toNat >>> 13) &&& 0xFF := by
  rw [keystreamByte, BitVec.extractLsb'_toNat, Nat.and_two_pow_sub_one_eq_mod _ 8]

/-- An entry of a table is the entry of its list of bytes. -/
theorem tableEntry_eq_getD {n : Nat} (table : Vector Byte n) (i : Nat) (h : i < n) :
    table[i] = table.toList.getD i 0 := by
  simp [List.getD_eq_getElem?_getD, h]

/-- Settles O36: `seed`, `next` and `ksb` on naturals, `inc` mode by mode, `mix` and the cipher's lookup as entries of the
tables' bytes. -/
theorem derivedFunctionsAreTheirArithmetic : Obligations.DerivedFunctionsAreTheirArithmetic := by
  refine ⟨lcgSeed_toNat, lcgNext_toNat, keystreamByte_toNat, fun t => ⟨rfl, rfl⟩, fun p t0 t1 b => ?_, fun p i => ?_⟩
  · rw [mix, t1At, t0At, tableEntry_eq_getD, tableEntry_eq_getD]
  · rw [ktAt, tableEntry_eq_getD]

/-! The cipher undone (R19). -/

/-- Applying a key twice XORs each byte with its mask twice (R19, R144). -/
theorem applyKey_applyKey (p : Params) (d : List Byte) (k : Byte) : applyKey p (applyKey p d k) k = d := by
  apply List.ext_getElem?
  intro i
  have xor_twice : (fun b => b ^^^ maskAt p k i) ∘ (fun b => b ^^^ maskAt p k i) = id := funext fun b => by simp
  rw [applyKey_getElem?, applyKey_getElem?, Option.map_map, xor_twice, Option.map_id_fun, id]

/-- Settles O45: `apply` undoes itself and keeps the length. -/
theorem applyIsAnInvolution : Obligations.ApplyIsAnInvolution :=
  fun p d k => ⟨applyKey_applyKey p d k, applyKey_length p d k⟩

end Sys2Proof.Machine

/-! The family of 10_state.md: the registers as the host sees them, the values after reset, a command word at CMD, what
each command leaves unchanged, the two guard flags, the independence of the two engines, and host reads of unwritten
bytes. -/

namespace Sys2Proof.Machine

/-! The registers as numbers (R32, R37, R39). -/

/-- Words put side by side, as a number. -/
theorem toNat_append_eq_add {n m : Nat} (x : BitVec n) (y : BitVec m) :
    (x ++ y).toNat = x.toNat * 2 ^ m + y.toNat := by
  rw [BitVec.toNat_append, ← Nat.shiftLeft_add_eq_or_of_lt y.isLt, Nat.shiftLeft_eq]

/-- STATUS as a number (R37). -/
theorem State.statusWord_toNat (s : State) : s.statusWord.toNat =
    s.cipher.seeded.toNat + 2 * s.checksum.sinit.toNat + 8 * s.err.errv.toNat + 16 * s.err.errc.toNat := by
  simp only [State.statusWord, toNat_append_eq_add, BitVec.toNat_ofBool, BitVec.ofNat_eq_ofNat, BitVec.toNat_zero]
  omega

/-- STATUS bit by bit (R37). -/
theorem State.statusWord_bits (s : State) :
    s.statusWord.getLsbD 0 = s.cipher.seeded ∧ s.statusWord.getLsbD 1 = s.checksum.sinit ∧
      s.statusWord.getLsbD 2 = false ∧ s.statusWord.getLsbD 3 = s.err.errv ∧
      s.statusWord.extractLsb' 4 4 = s.err.errc ∧ s.statusWord.extractLsb' 8 24 = 0 := by
  have bit (i : Nat) (b : Bool) (h : s.statusWord.toNat / 2 ^ i % 2 = b.toNat) : s.statusWord.getLsbD i = b := by
    rw [BitVec.getLsbD, Nat.testBit_eq_decide_div_mod_eq, h]
    cases b <;> rfl
  have hseeded := s.cipher.seeded.toNat_lt
  have hsinit := s.checksum.sinit.toNat_lt
  have herrv := s.err.errv.toNat_lt
  have herrc := s.err.errc.isLt
  refine ⟨bit 0 _ ?_, bit 1 _ ?_, bit 2 false ?_, bit 3 _ ?_, BitVec.eq_of_toNat_eq ?_, BitVec.eq_of_toNat_eq ?_⟩
  all_goals
    simp only [extract_toNat, s.statusWord_toNat, Bool.toNat_false, BitVec.ofNat_eq_ofNat, BitVec.toNat_zero]
    omega

/-- SIDX as a number (R39). -/
theorem State.sidxWord_eq (s : State) : s.sidxWord = BitVec.ofNat 32
    (s.checksum.t0i % 256 + 2 ^ 8 * (s.checksum.t1i % 256) + 2 ^ 16 * s.checksum.spos.toNat) := by
  apply BitVec.eq_of_toNat_eq
  have := s.checksum.spos.isLt
  simp only [State.sidxWord, toNat_append_eq_add, BitVec.toNat_ofNat, BitVec.ofNat_eq_ofNat]
  omega

theorem Lanes.get_fields (l : Lanes) :
    l.get 0 = l.lane0 ∧ l.get 1 = l.lane1 ∧ l.get 2 = l.lane2 ∧ l.get 3 = l.lane3 := ⟨rfl, rfl, rfl, rfl⟩

/-- SUM as a number (R32). -/
theorem Lanes.sum_eq (l : Lanes) : l.sum = BitVec.ofNat 32
    (2 ^ 24 * (l.get 0).toNat + 2 ^ 16 * (l.get 1).toNat + 2 ^ 8 * (l.get 2).toNat + (l.get 3).toNat) := by
  obtain ⟨h0, h1, h2, h3⟩ := l.get_fields
  rw [h0, h1, h2, h3]
  apply BitVec.eq_of_toNat_eq
  simp only [Lanes.sum, toNat_append_eq_add, BitVec.toNat_ofNat]
  omega

/-! The register window (R37 to R39, R50, R54). -/

/-- An access between the last register and the buffer window reaches nothing (R50, R54). -/
theorem busTarget_reserved {o : BitVec 18} (width : Nat) (h0 : 0x028 ≤ o.toNat) (h1 : o.toNat ≤ 0x0FF) :
    busTarget width o = none := busTarget_eq_none.2 (by omega)

theorem access_read_of_busTarget_none {width : Nat} {o : BitVec 18} (h : busTarget width o = none) (s : State) :
    access (.read width o) s = .fault .busError := by rw [access, hostRead, h]

theorem access_write_of_busTarget_none {width : Nat} {o : BitVec 18} (h : busTarget width o = none) (v : Word)
    (s : State) : access (.write width o v) s = .fault .busError := by rw [access, hostWrite, h]

/-- Settles O12: each offset listed is that of a register, and the reserved ones reach nothing. -/
theorem registerMapReadsAsListed : Obligations.RegisterMapReadsAsListed := by
  intro s
  refine ⟨fun off val h => ?_, fun v h => ?_, ⟨_, access_readReg .status s⟩, fun off h v => ?_,
    fun off width v h0 h1 => ?_, s.checksum.acc.get_fields⟩
  · simp only [List.mem_cons, List.not_mem_nil, or_false, Prod.mk.injEq, ← State.sidxWord_eq, ← Lanes.sum_eq] at h
    rcases h with ⟨rfl, rfl⟩ | ⟨rfl, rfl⟩ | ⟨rfl, rfl⟩ | ⟨rfl, rfl⟩ | ⟨rfl, rfl⟩ | ⟨rfl, rfl⟩ | ⟨rfl, rfl⟩ |
      ⟨rfl, rfl⟩ | ⟨rfl, rfl⟩
    · exact access_readReg .cmd s
    · exact access_readReg .src s
    · exact access_readReg .dst s
    · exact access_readReg .len s
    · exact access_readReg .lcg s
    · exact access_readReg .kpos s
    · exact access_readReg .sidx s
    · exact access_readReg .sum s
    · exact access_readReg .out s
  · have hlog := congrArg State.readLog (Host.Outcome.next.inj ((access_readReg .status s).symm.trans h))
    rw [← show s.statusWord = v from List.head_eq_of_cons_eq hlog]
    exact s.statusWord_bits
  · simp only [List.mem_cons, List.not_mem_nil, or_false] at h
    rcases h with rfl | rfl | rfl | rfl | rfl
    · exact access_writeReg (r := .lcg) (by decide) v s
    · exact access_writeReg (r := .kpos) (by decide) v s
    · exact access_writeReg (r := .sidx) (by decide) v s
    · exact access_writeReg (r := .sum) (by decide) v s
    · exact access_writeReg (r := .out) (by decide) v s
  · have h := busTarget_reserved width h0 h1
    exact ⟨access_read_of_busTarget_none h s, access_write_of_busTarget_none h v s⟩

/-- Settles O13: STATUS as a number, and the write as `State.writeStatus` on either value of bit 3. -/
theorem statusReadsItsFieldsAndClearsByBit3 : Obligations.StatusReadsItsFieldsAndClearsByBit3 := by
  intro s v
  have hw : access (.write 4 0x004 v) s = .next (s.writeStatus v) := access_writeReg (r := .status) (by decide) v s
  refine ⟨s.statusWord_toNat, fun h => ?_, fun h => ?_⟩
  · rw [hw, State.writeStatus, if_pos h]; rfl
  · rw [hw, State.writeStatus, h]; rfl

/-! The values after reset (R45). -/

@[simp] theorem Lanes.sum_zero : Lanes.zero.sum = 0 := by decide

/-- Settles O10: both states are the reset state up to the host's two lists. -/
theorem resetLeavesTheListedValues : Obligations.ResetLeavesTheListedValues := by
  refine fun s => ⟨platformReset s, rfl, fun t' ht => ?_⟩
  have hreset : ∃ es ws, t' = (State.reset.withPending es).withReadLog ws := by
    rcases List.mem_pair.1 ht with rfl | rfl
    · exact ⟨s.pending, s.readLog, rfl⟩
    · exact ⟨[], [], rfl⟩
  obtain ⟨es, ws, rfl⟩ := hreset
  have hbuf (a : Nat) : ¬ ((State.reset.withPending es).withReadLog ws).buf.written a := Memory.not_written.2 rfl
  exact ⟨rfl, rfl, rfl, rfl, rfl, rfl, Lanes.sum_zero, rfl, rfl, rfl, rfl, rfl, rfl, rfl, rfl, rfl, rfl, rfl, hbuf⟩

/-- Settles O53: the state of R45 is the one `State.reset_inv` speaks of. -/
theorem resetMeetsTheInvariant : Obligations.ResetMeetsTheInvariant := State.reset_inv

/-! A command word at CMD (R38, R58, R84). -/

/-- A legal word written to CMD is the command it decodes to (R38). -/
theorem performWord_of_ok {w : Word} {i : Instr} (h : decode w = .ok i) (s : State) : performWord w s = exec i s := by
  rw [performWord, h]

/-- An Illegal word written to CMD records ILLEGAL (R84). -/
theorem performWord_of_error {w : Word} {e : Illegal} (h : decode w = .error e) (s : State) :
    performWord w s = .next (s.recorded .illegal) := by
  rw [performWord, h]
  exact raiseError_eq .illegal s

/-- A step takes the first held-back access (R58). -/
theorem step_of_pending {s : State} {e : Event} {rest : List Event} (h : s.pending = e :: rest) :
    step s = access e (s.withPending rest) := by
  rw [step, takeNext, h]

/-- Settles O7: the step is the access, and the access is the command. -/
theorem stepPerformsTheDecodedCommand : Obligations.StepPerformsTheDecodedCommand := by
  intro s w i rest hpending hdecode _
  rw [step_of_pending hpending, access_cmdWrite, performWord_of_ok hdecode]
  rfl

/-- Settles O11: the two answers of the decoder, and the read of CMD. -/
theorem cmdWritePerformsAndReadsZero : Obligations.CmdWritePerformsAndReadsZero := by
  refine fun w s => ⟨fun i h => ?_, fun e h => ?_, access_readReg .cmd s⟩
  · rw [access_cmdWrite, performWord_of_ok h]
  · rw [access_cmdWrite, performWord_of_error h]

/-! What a command leaves unchanged (R23, R33 to R36, R40). -/

/-- A command that completes has recorded the error of its check, or had its effect (R201, R202). -/
theorem exec_next {i : Instr} {s t : State} (h : exec i s = .next t) :
    (∃ e, commandError s i = some e ∧ t = s.recorded e) ∨ (commandError s i = none ∧ effect i s = .next t) := by
  cases he : commandError s i with
  | some e => rw [exec_of_error he] at h; cases h; exact .inl ⟨e, rfl, rfl⟩
  | none => exact .inr ⟨rfl, (exec_of_none he).symm.trans h⟩

/-- Settles O49: a recorded error changes the record only, and each effect replaces the engine states, OUT or BUF as its
case of `effect_next` says. -/
theorem commandFrame : Obligations.CommandFrame := by
  intro i s t h
  obtain ⟨e, -, rfl⟩ | ⟨-, h⟩ := exec_next h
  · simp
  rcases effect_next h with ⟨rfl, rfl⟩ | ⟨rfl, c, -, rfl⟩ | ⟨a, b, rfl, rfl⟩ | ⟨rfl, bs, -, rfl⟩ | ⟨d, rfl, rfl⟩ |
    ⟨rfl, c, bs, -, -, rfl⟩ | ⟨k, rfl, rfl⟩ | ⟨rfl, c, m, hloop, rfl⟩ | ⟨d, rfl, rfl⟩ | ⟨k, rfl, c, m, hloop, rfl⟩ |
    ⟨rfl, rfl⟩
  · simp
  · simp
  · simp
  · simp
  · simp
  · simp
  · simp
  · simpa using (cipherRegion_spec hloop).2
  · simp
  · simpa using (cipherRegion_spec hloop).2
  · simp

/-- What a write of which a register keeps `n` bits reads back as (R34 to R36). -/
theorem setWidth_setWidth_word (v : Word) (n : Nat) :
    (v.setWidth n).setWidth 32 = BitVec.ofNat 32 (v.toNat % 2 ^ n) := by
  rw [← BitVec.toNat_setWidth, BitVec.ofNat_toNat]

/-- Settles O14: the write and the read back register by register, and `commandFrame` for the commands. -/
theorem regionRegistersKeepLowBits : Obligations.RegionRegistersKeepLowBits := by
  refine ⟨fun s v => ?_, fun i s t h => ?_, rfl, rfl, rfl⟩
  · simp only [← setWidth_setWidth_word, BitVec.ofNat_toNat]
    exact ⟨⟨_, access_writeReg (r := .src) (by decide) v s, rfl, access_readReg .src _⟩,
      ⟨_, access_writeReg (r := .dst) (by decide) v s, rfl, access_readReg .dst _⟩,
      ⟨_, access_writeReg (r := .len) (by decide) v s, rfl, access_readReg .len _⟩⟩
  · obtain ⟨hsrc, hdst, hlen, -⟩ := commandFrame i s t h
    exact ⟨hsrc, hdst, hlen⟩

/-! The guard flags (R26, R31). -/

/-- A write to STATUS leaves the record cleared, or nothing changed (R37). -/
theorem State.writeStatus_eq (s : State) (v : Word) : s.writeStatus v = clearError s ∨ s.writeStatus v = s := by
  unfold State.writeStatus
  split
  · exact .inl rfl
  · exact .inr rfl

/-- A write to a register other than CMD reaches neither engine (R39). -/
theorem State.writeReg_engines (s : State) (r : Reg) (v : Word) :
    (s.writeReg r v).cipher = s.cipher ∧ (s.writeReg r v).checksum = s.checksum := by
  cases r
  case status =>
    show (s.writeStatus v).cipher = _ ∧ (s.writeStatus v).checksum = _
    obtain h | h := s.writeStatus_eq v
    · rw [h]; exact ⟨rfl, rfl⟩
    · rw [h]; exact ⟨rfl, rfl⟩
  all_goals exact ⟨rfl, rfl⟩

/-- The loop of R133 neither seeds nor clears the keystream (R26). -/
theorem cipherRegion_seeded {p : Params} {n src dst : Nat} {c c' : CipherState} {m m' : Memory}
    (h : cipherRegion p n src dst c m = .ok (c', m')) : c'.seeded = c.seeded := by
  rw [(cipherRegion_spec h).1, CipherState.advance_iterate_seeded]

/-- Settles O50: a command's flags by its error or its effect; the other accesses reach neither engine. -/
theorem guardFlagsFollowSeedInitialiseAndClear : Obligations.GuardFlagsFollowSeedInitialiseAndClear := by
  refine ⟨fun i s t h => ?_, fun e s t h hcmd hreset => ?_, fun s t h => ?_⟩
  · obtain ⟨e, he, rfl⟩ | ⟨he, heff⟩ := exec_next h
    · cases i
      case clr | cseed | sinitx => cases he
      all_goals simp [he]
    · rcases effect_next heff with ⟨rfl, rfl⟩ | ⟨rfl, c, hc, rfl⟩ | ⟨a, b, rfl, rfl⟩ | ⟨rfl, bs, -, rfl⟩ |
        ⟨d, rfl, rfl⟩ | ⟨rfl, c, bs, hc, -, rfl⟩ | ⟨k, rfl, rfl⟩ | ⟨rfl, c, m, hloop, rfl⟩ | ⟨d, rfl, rfl⟩ |
        ⟨k, rfl, c, m, hloop, rfl⟩ | ⟨rfl, rfl⟩
      · simp
      · simp [he, (State.initialChecksum_bounds hc).1]
      · simp
      · simp [ChecksumState.feedAll_sinit]
      · simp
      · simp [he, ChecksumState.feedAll_sinit, (State.initialChecksum_bounds hc).1]
      · simp [CipherState.start]
      · simp [cipherRegion_seeded hloop]
      · simp
      · simp [he, cipherRegion_seeded hloop, CipherState.start]
      · simp [CipherState.cleared, ChecksumState.cleared]
  · cases e with
    | reset => exact absurd rfl hreset
    | read width o =>
      obtain ⟨v, rfl⟩ := hostRead_next h
      exact ⟨rfl, rfl⟩
    | write width o v =>
      obtain ⟨rfl, rfl, hw⟩ | ⟨r, -, -, -, rfl⟩ | ⟨a, -, -, -, rfl⟩ := hostWrite_next h
      · cases hd : decode v with
        | ok i => exact absurd rfl (hcmd v i hd)
        | error e =>
          rw [performWord_of_error hd] at hw
          cases hw
          exact ⟨rfl, rfl⟩
      · obtain ⟨hci, hck⟩ := s.writeReg_engines r v
        exact ⟨congrArg _ hci, congrArg _ hck⟩
      · exact ⟨rfl, rfl⟩
  · cases h
    exact ⟨rfl, rfl⟩

/-! The engines do not read each other's state (R23). -/

/-- The commands that run the checksum engine (40_checksum.md). -/
def RunsChecksum (i : Instr) : Prop :=
  i ∈ [.sinit, .sfeed, .sum32] ∨ (∃ a b, i = .sinitx a b) ∨ ∃ d, i = .sbyte d

/-- The commands that run the cipher engine (41_cipher.md). -/
def RunsCipher (i : Instr) : Prop := i = .cxor ∨ ∃ d, i = .cseed d ∨ i = .cbyte d ∨ i = .capply d

theorem commandError_withCipher {i : Instr} (hi : RunsChecksum i) (s : State) (c : CipherState) :
    commandError (s.withCipher c) i = commandError s i := by
  cases i
  case cxor | cbyte => simp [RunsChecksum] at hi
  all_goals rfl

theorem effect_withCipher {i : Instr} {s t : State} (hi : RunsChecksum i) (c : CipherState)
    (h : effect i s = .next t) : effect i (s.withCipher c) = .next (t.withCipher c) := by
  cases i <;> simp only [effect, State.withCipher_initialChecksum, State.withCipher_sourceBytes] at h ⊢
  case sinit =>
    generalize s.initialChecksum = x at h ⊢
    cases x <;> cases h
    rfl
  case sfeed =>
    generalize s.sourceBytes = x at h ⊢
    cases x <;> cases h
    rfl
  case sum32 =>
    generalize s.initialChecksum = x at h ⊢
    generalize s.sourceBytes = y at h ⊢
    cases x <;> cases y <;> cases h
    rfl
  case sinitx | sbyte => cases h; rfl
  all_goals simp [RunsChecksum] at hi

theorem commandError_withChecksum {i : Instr} (hi : RunsCipher i) (s : State) (c : ChecksumState) :
    commandError (s.withChecksum c) i = commandError s i := by
  cases i
  case sfeed | sbyte => simp [RunsCipher] at hi
  all_goals rfl

/-- The region loop reads no checksum state. -/
theorem runKeystream_withChecksum {p : Params} {c : CipherState} {s t : State} (k : ChecksumState)
    (h : runKeystream p c s = .next t) : runKeystream p c (s.withChecksum k) = .next (t.withChecksum k) := by
  obtain ⟨c', m, hloop, rfl⟩ := runKeystream_next h
  have hloop' : cipherRegion p (s.withChecksum k).regionLen (s.withChecksum k).srcAddr (s.withChecksum k).dstAddr c
      (s.withChecksum k).buf = .ok (c', m) := hloop
  rw [runKeystream, hloop']
  rfl

theorem effect_withChecksum {i : Instr} {s t : State} (hi : RunsCipher i) (c : ChecksumState)
    (h : effect i s = .next t) : effect i (s.withChecksum c) = .next (t.withChecksum c) := by
  cases i
  case cxor | capply => exact runKeystream_withChecksum c h
  case cseed | cbyte => cases h; rfl
  all_goals simp [RunsCipher] at hi

/-- Settles O51: neither a command's check nor its effect reads the other engine's state. -/
theorem cipherAndChecksumAreDisjoint : Obligations.CipherAndChecksumAreDisjoint := by
  refine ⟨fun i s t c hi h => ?_, fun i s t c hi h => ?_⟩
  · obtain ⟨e, he, rfl⟩ | ⟨he, heff⟩ := exec_next h
    · exact exec_of_error ((commandError_withCipher hi s c).trans he)
    · rw [exec_of_none ((commandError_withCipher hi s c).trans he)]
      exact effect_withCipher hi c heff
  · obtain ⟨e, he, rfl⟩ | ⟨he, heff⟩ := exec_next h
    · exact exec_of_error ((commandError_withChecksum hi s c).trans he)
    · rw [exec_of_none ((commandError_withChecksum hi s c).trans he)]
      exact effect_withChecksum hi c heff

/-! Host reads of unwritten bytes (R44, R210). -/

/-- Settles O18: the access reaches BUF, where a wide read stops at its first unwritten byte. -/
theorem hostReadOfUnwrittenByteFaults : Obligations.HostReadOfUnwrittenByteFaults := by
  intro s width a j hw ha hl hj hwritten hunwritten
  have hw : width = 1 ∨ width = 2 ∨ width = 4 := by simpa using hw
  have hread : s.buf.memRead a width = .error (.uninitRead (a + j)) :=
    Memory.readOnto_unwritten hj hwritten hunwritten 0
  show hostRead width (bufOffset a) s = _
  simp only [hostRead, busTarget_buf hw ha hl, hread]

end Sys2Proof.Machine

/-! The family of 20_memory.md: accesses in issue order, which accesses the bus admits, the bytes of wide buffer
accesses, what a host access leaves unchanged, and the host addresses of the aperture. -/

namespace Sys2Proof.Machine

/-! Steps as accesses in issue order (R58, R63). -/

theorem core_run_succ (k : Nat) (s : State) : core.run (k + 1) s = andThen (step s) (core.run k) := by
  simp only [Host.Core.run, core]
  cases step s <;> rfl

/-- Settles O8, by induction on the held-back accesses: a step takes the first of them and leaves the others held back,
which no access reads or writes. -/
theorem stepsApplyAccessesInIssueOrder : Obligations.StepsApplyAccessesInIssueOrder := by
  intro es
  induction es with
  | nil => exact fun s => rfl
  | cons e es ih =>
    intro s
    have hstep : step (s.withPending (e :: es)) = mapPending es (access e s) := by
      rw [step_of_pending (State.withPending_pending s (e :: es)), State.withPending_withPending, access_withPending]
    rw [List.length_cons, core_run_succ, hstep, accessAll_cons, access_withPending]
    cases access e s with
    | next t => exact ih t
    | fault | refused => rfl

/-! Faults (R54, R55, R62, R210): only a refused access is a bus error, everything else stops at an unwritten byte. -/

theorem Memory.readOnto_error {m : Memory} {a n : Nat} {got : Word} {f : Fault} (h : m.readOnto a n got = .error f) :
    ∃ b, f = .uninitRead b := by
  induction n generalizing a got with
  | zero => cases h
  | succ n ih =>
    rw [Memory.readOnto] at h
    split at h
    · exact ih h
    · rename_i hr
      cases h
      exact ⟨a, (Memory.readByte_eq_error.1 hr).2⟩

theorem runKeystream_fault {p : Params} {c : CipherState} {s : State} {f : Fault}
    (h : runKeystream p c s = .fault f) : ∃ b, f = .uninitRead b := by
  unfold runKeystream at h
  split at h
  · rename_i hloop; cases h; exact cipherRegion_error hloop
  · cases h

theorem effect_fault {i : Instr} {s : State} {f : Fault} (h : effect i s = .fault f) : ∃ b, f = .uninitRead b := by
  have hinit {g : Fault} (hg : s.initialChecksum = .error g) : ∃ b, g = .uninitRead b :=
    ⟨_, (State.initialChecksum_eq_error.1 hg).2⟩
  have hsource {g : Fault} (hg : s.sourceBytes = .error g) : ∃ b, g = .uninitRead b := by
    obtain ⟨i, -, -, -, rfl⟩ := State.sourceBytes_eq_error.1 hg
    exact ⟨_, rfl⟩
  cases i <;> rw [effect] at h
  case sinit =>
    split at h
    · rename_i hg; cases h; exact hinit hg
    · cases h
  case sfeed =>
    split at h
    · rename_i hg; cases h; exact hsource hg
    · cases h
  case sum32 =>
    split at h
    · rename_i hg; cases h; exact hinit hg
    · split at h
      · rename_i hg; cases h; exact hsource hg
      · cases h
  case cxor | capply => exact runKeystream_fault h
  all_goals cases h

theorem exec_fault {i : Instr} {s : State} {f : Fault} (h : exec i s = .fault f) : ∃ b, f = .uninitRead b := by
  cases he : commandError s i with
  | some e => rw [exec_of_error he] at h; cases h
  | none => exact effect_fault ((exec_of_none he).symm.trans h)

theorem performWord_fault {w : Word} {s : State} {f : Fault} (h : performWord w s = .fault f) :
    ∃ b, f = .uninitRead b := by
  cases hd : decode w with
  | ok i => rw [performWord_of_ok hd] at h; exact exec_fault h
  | error e => rw [performWord_of_error hd] at h; cases h

theorem access_read_busError {width : Nat} {o : BitVec 18} {s : State} :
    access (.read width o) s = .fault .busError ↔ busTarget width o = none := by
  refine ⟨fun h => ?_, fun h => access_read_of_busTarget_none h s⟩
  rw [access, hostRead] at h
  split at h
  · assumption
  · cases h
  · split at h
    · rename_i hr
      cases h
      obtain ⟨b, hb⟩ := Memory.readOnto_error hr
      cases hb
    · cases h

theorem access_write_busError {width : Nat} {o : BitVec 18} {v : Word} {s : State} :
    access (.write width o v) s = .fault .busError ↔ busTarget width o = none := by
  refine ⟨fun h => ?_, fun h => access_write_of_busTarget_none h v s⟩
  rw [access, hostWrite] at h
  split at h
  · assumption
  · obtain ⟨b, hb⟩ := performWord_fault h
    cases hb
  · cases h
  · cases h

/-- Settles O15: an access is a bus error exactly if it reaches nothing, and `busTarget_eq_none` says when it does. -/
theorem busErrorExactlyWhenNotAdmitted : Obligations.BusErrorExactlyWhenNotAdmitted :=
  fun _ _ _ _ => ⟨access_read_busError.trans busTarget_eq_none, access_write_busError.trans busTarget_eq_none⟩

/-! The big-endian value of a byte sequence (R53). -/

/-- The number whose bytes are `bs`, the most significant first. -/
def bigEndian (bs : List Byte) : Nat := bs.foldl (fun n b => 256 * n + b.toNat) 0

theorem bigEndian_append_singleton (bs : List Byte) (b : Byte) :
    bigEndian (bs ++ [b]) = 256 * bigEndian bs + b.toNat := List.foldl_concat ..

theorem bigEndian_lt (bs : List Byte) : bigEndian bs < 2 ^ (8 * bs.length) := by
  induction bs using List.reverseRecOn with
  | nil => exact Nat.zero_lt_one
  | append_singleton bs b ih =>
    have hb := b.isLt
    rw [bigEndian_append_singleton, List.length_append, List.length_singleton, Nat.mul_add, Nat.pow_add]
    omega

theorem bigEndian_byte (bs : List Byte) {j : Nat} (hj : j < bs.length) :
    some (BitVec.ofNat 8 (bigEndian bs / 2 ^ (8 * (bs.length - 1 - j)))) = bs[j]? := by
  induction bs using List.reverseRecOn with
  | nil => cases hj
  | append_singleton bs b ih =>
    have hb := b.isLt
    rw [bigEndian_append_singleton, List.length_append, List.length_singleton] at *
    obtain hlt | rfl : j < bs.length ∨ j = bs.length := by omega
    · have hexp : 8 * (bs.length + 1 - 1 - j) = 8 + 8 * (bs.length - 1 - j) := by omega
      have hdiv : (256 * bigEndian bs + b.toNat) / 2 ^ 8 = bigEndian bs := by omega
      rw [List.getElem?_append_left hlt, ← ih hlt, hexp, Nat.pow_add, ← Nat.div_div_eq_div_mul, hdiv]
    · rw [List.getElem?_concat_length]
      refine congrArg some (BitVec.eq_of_toNat_eq ?_)
      rw [BitVec.toNat_ofNat, Nat.add_sub_cancel, Nat.sub_self, Nat.mul_zero, Nat.pow_zero, Nat.div_one]
      omega

/-- One byte joined below a word (R13). -/
theorem ofNat_shiftLeft_or_byte (n : Nat) (b : Byte) :
    (BitVec.ofNat 32 n <<< 8) ||| b.setWidth 32 = BitVec.ofNat 32 (256 * n + b.toNat) := by
  have hshift : BitVec.ofNat 32 (n <<< 8) = BitVec.ofNat 32 n <<< 8 := by
    apply BitVec.eq_of_toNat_eq
    simp only [BitVec.toNat_ofNat, BitVec.toNat_shiftLeft, Nat.shiftLeft_eq]
    omega
  have hjoin : 256 * n + b.toNat = n <<< 8 ||| b.toNat := by
    rw [← Nat.shiftLeft_add_eq_or_of_lt b.isLt, Nat.shiftLeft_eq, Nat.mul_comm]
  rw [hjoin, BitVec.ofNat_or, hshift, BitVec.ofNat_toNat]

/-- A wide read's word is the number of its bytes (R53). -/
theorem foldl_joinByte_eq_bigEndian (bs : List Byte) :
    bs.foldl (fun (x : Word) b => (x <<< 8) ||| b.setWidth 32) 0 = BitVec.ofNat 32 (bigEndian bs) := by
  induction bs using List.reverseRecOn with
  | nil => rfl
  | append_singleton bs b ih =>
    rw [List.foldl_concat, ih, ofNat_shiftLeft_or_byte, bigEndian_append_singleton]

/-- A byte of a word as a number (R13). -/
theorem setWidth_shiftRight_eq_ofNat (v : Word) (k : Nat) :
    (v >>> k).setWidth 8 = BitVec.ofNat 8 (v.toNat / 2 ^ k) := by
  rw [← BitVec.ofNat_toNat, BitVec.toNat_ushiftRight, Nat.shiftRight_eq_div_pow]

theorem Memory.memRead_holds {m : Memory} {a : Nat} {bs : List Byte} (h : m.holds a bs) :
    m.memRead a bs.length = .ok (BitVec.ofNat 32 (bigEndian bs)) := by
  rw [Memory.memRead, Memory.readOnto_holds h, foldl_joinByte_eq_bigEndian]

/-- BUF after a wide write, covered bytes and others alike (R53). -/
theorem Memory.memWrite_read_eq (m : Memory) (a n b : Nat) (v : Word) :
    (m.memWrite a n v).read b =
      if a ≤ b ∧ b < a + n then some (BitVec.ofNat 8 (v.toNat / 2 ^ (8 * (n - 1 - (b - a))))) else m.read b := by
  split
  · rename_i h
    obtain ⟨j, rfl⟩ := Nat.exists_eq_add_of_le h.1
    rw [Memory.memWrite_read m a n v (by omega), setWidth_shiftRight_eq_ofNat, Nat.add_sub_cancel_left]
  · exact Memory.memWrite_read_other v (by omega)

/-! Aligned accesses to BUF (R52, R53). -/

theorem access_writeBuf {width a : Nat} (hw : width ∈ [1, 2, 4]) (ha : a % width = 0) (hl : a < bufBytes) (v : Word)
    (s : State) : access (.write width (bufOffset a) v) s = .next (s.withBuf (s.buf.memWrite a width v)) := by
  rw [access, hostWrite, busTarget_buf (by simpa using hw) ha hl]

theorem access_readBuf {a : Nat} {bs : List Byte} (hw : bs.length ∈ [1, 2, 4]) (ha : a % bs.length = 0)
    (hl : a < bufBytes) {s : State} (h : s.buf.holds a bs) :
    access (.read bs.length (bufOffset a)) s = .next (s.returnData (BitVec.ofNat 32 (bigEndian bs))) := by
  simp only [access, hostRead, busTarget_buf (by simpa using hw) ha hl, Memory.memRead_holds h]

/-- Settles O16: the write is `Memory.memWrite` at `a`, and the read returns the number of the bytes. -/
theorem bufferAccessesAreBigEndian : Obligations.BufferAccessesAreBigEndian := by
  intro s width a v hw ha hl
  refine ⟨⟨_, access_writeBuf hw ha hl v s, fun j hj => ?_, fun b hb => Memory.memWrite_read_other v hb⟩, ?_⟩
  · rw [Memory.memWrite_read _ _ _ _ hj, setWidth_shiftRight_eq_ofNat]
  · rintro bs rfl h
    exact access_readBuf hw ha hl h

/-- Settles O17: every byte of the read is written after the write, so the read returns their number, whose bytes are
those of `Memory.memWrite_read_eq`. -/
theorem mixedWidthReadsAreExact : Obligations.MixedWidthReadsAreExact := by
  intro s t w a r b v hw hr ha hb hla hlb ht hwritten
  obtain rfl : s.withBuf (s.buf.memWrite a w v) = t :=
    Host.Outcome.next.inj ((access_writeBuf hw ha hla v s).symm.trans ht)
  have hread (j : Nat) := s.buf.memWrite_read_eq a w (b + j) v
  have hall : ∀ j, j < r → (s.buf.memWrite a w v).written (b + j) := by
    intro j hj
    rw [Memory.written, hread]
    split
    · rfl
    · exact (hwritten j hj).resolve_right ‹_›
  obtain ⟨bs, rfl, hbs⟩ := Memory.exists_holds hall
  have hlt := bigEndian_lt bs
  have hwidth : bs.length = 1 ∨ bs.length = 2 ∨ bs.length = 4 := by simpa using hr
  have hword : 2 ^ (8 * bs.length) ≤ 2 ^ 32 := Nat.pow_le_pow_right (by decide) (by omega)
  have hx : (BitVec.ofNat 32 (bigEndian bs)).toNat = bigEndian bs := Nat.mod_eq_of_lt (hlt.trans_le hword)
  refine ⟨_, access_readBuf hr hb hlb hbs, ?_, fun j hj => ?_⟩
  · rwa [hx]
  · rw [hx, bigEndian_byte bs hj, ← hbs j hj, hread]

/-! What a host access leaves unchanged (R39, R59). -/

/-- Beside the two engines (`State.writeReg_engines`), what a write to a register other than CMD leaves (R37, R39). -/
theorem State.writeReg_frame (s : State) (r : Reg) (v : Word) :
    (s.writeReg r v).out = s.out ∧ (s.writeReg r v).pending = s.pending ∧ (s.writeReg r v).readLog = s.readLog ∧
      (s.writeReg r v).buf = s.buf ∧ (r ≠ .status → (s.writeReg r v).err = s.err) := by
  cases r
  case status =>
    have hstatus : s.writeReg .status v = clearError s ∨ s.writeReg .status v = s := s.writeStatus_eq v
    obtain h | h := hstatus
    · rw [h]; exact ⟨rfl, rfl, rfl, rfl, fun hne => absurd rfl hne⟩
    · rw [h]; exact ⟨rfl, rfl, rfl, rfl, fun hne => absurd rfl hne⟩
  all_goals exact ⟨rfl, rfl, rfl, rfl, fun _ => rfl⟩

theorem Reg.offset_lt (r : Reg) : r.offset.toNat < 0x20000 := by cases r <;> decide

/-- Settles O19: outside CMD a write replaces one register's part of the state, or BUF. -/
theorem hostAccessesLeaveTheEngine : Obligations.HostAccessesLeaveTheEngine := by
  refine ⟨fun width off s t h => hostRead_next h, fun width off v s t hcmd h => ?_⟩
  obtain ⟨-, hoff, -⟩ | ⟨r, -, -, rfl, rfl⟩ | ⟨a, hoff, -, -, rfl⟩ := hostWrite_next h
  · exact absurd hoff hcmd
  · obtain ⟨hcipher, hchecksum⟩ := s.writeReg_engines r v
    obtain ⟨hout, hpending, hlog, hbuf, herr⟩ := s.writeReg_frame r v
    exact ⟨hcipher, hchecksum, hout, hpending, hlog, fun hne => herr fun hr => hne (hr ▸ rfl), fun _ => hbuf,
      fun hge => absurd r.offset_lt (Nat.not_lt.2 hge)⟩
  · refine ⟨rfl, rfl, rfl, rfl, rfl, fun _ => rfl, fun hlt => ?_, fun _ => ⟨rfl, rfl, rfl⟩⟩
    simp only [bufWindow] at hoff
    omega

/-! The aperture (R9, R50). -/

theorem apertureOffset_eq_some {base address : Nat} {o : BitVec 18} :
    apertureOffset base address = some o ↔ address = base + o.toNat := by
  have ho := o.isLt
  simp only [apertureOffset, apertureBytes]
  split
  · rename_i h
    have hlt : address - base < 2 ^ 18 := by omega
    rw [Option.some_inj, ← BitVec.toNat_inj, BitVec.toNat_ofNat, Nat.mod_eq_of_lt hlt]
    omega
  · simp only [reduceCtorEq, false_iff]
    omega

theorem apertureOffset_eq_none {base address : Nat} :
    apertureOffset base address = none ↔ address < base ∨ base + 0x40000 ≤ address := by
  simp only [apertureOffset, apertureBytes]
  split
  · simp only [reduceCtorEq, false_iff]
    omega
  · simp only [true_iff]
    omega

/-- Settles O20: the address map is `apertureOffset`, and `State.issueAt` follows it. -/
theorem hostAddressesMapToOffsets : Obligations.HostAddressesMapToOffsets := by
  refine ⟨fun base address => ⟨fun o => apertureOffset_eq_some, apertureOffset_eq_none⟩,
    fun s mk => ⟨fun o => ?_, fun address h => ?_⟩⟩
  · rw [State.issueAt, apertureOffset_eq_some.2 rfl]
    rfl
  · rw [State.issueAt, apertureOffset_eq_none.2 h]

end Sys2Proof.Machine

/-! The family of 30_encoding.md: the encoder and the decoder undo each other, the rows of the opcode map, the number of
legal words, reserved words, and the pseudo-instructions of the host assembly. -/

namespace Sys2Proof

/-! The fields of an encoded word (R81, R82). -/

@[simp] theorem opField_wordN (op : BitVec 4) : opField (wordN op) = op := by
  rw [← BitVec.toNat_inj, opField, extract_toNat, wordN_toNat]; omega

@[simp] theorem opField_wordB (op : BitVec 4) (b : Byte) : opField (wordB op b) = op := by
  rw [← BitVec.toNat_inj, opField, extract_toNat, wordB_toNat]; omega

@[simp] theorem opField_wordX (op : BitVec 4) (h l : Byte) : opField (wordX op h l) = op := by
  rw [← BitVec.toNat_inj, opField, extract_toNat, wordX_toNat]; omega

@[simp] theorem immLow_wordB (op : BitVec 4) (b : Byte) : immLow (wordB op b) = b := by
  rw [← BitVec.toNat_inj, immLow, extract_toNat, wordB_toNat]; omega

@[simp] theorem immLow_wordX (op : BitVec 4) (h l : Byte) : immLow (wordX op h l) = l := by
  rw [← BitVec.toNat_inj, immLow, extract_toNat, wordX_toNat]; omega

@[simp] theorem immHigh_wordX (op : BitVec 4) (h l : Byte) : immHigh (wordX op h l) = h := by
  rw [← BitVec.toNat_inj, immHigh, extract_toNat, wordX_toNat]; omega

@[simp] theorem mustBeZero_wordN (op : BitVec 4) : (wordN op).extractLsb' 0 28 = 0 := by
  rw [extract_eq_zero, wordN_toNat]; omega

@[simp] theorem mustBeZero_wordB (op : BitVec 4) (b : Byte) : (wordB op b).extractLsb' 8 20 = 0 := by
  rw [extract_eq_zero, wordB_toNat]; omega

@[simp] theorem mustBeZero_wordX (op : BitVec 4) (h l : Byte) : (wordX op h l).extractLsb' 16 12 = 0 := by
  rw [extract_eq_zero, wordX_toNat]; omega

/-! A word put together from its fields (R81). -/

theorem wordN_eq {w : Word} {op : BitVec 4} (hop : w.toNat / 268435456 = op.toNat) (hzero : w.toNat % 268435456 = 0) :
    wordN op = w := by
  rw [← BitVec.toNat_inj, wordN_toNat]; omega

theorem wordB_eq {w : Word} {op : BitVec 4} (hop : w.toNat / 268435456 = op.toNat)
    (hzero : w.toNat / 256 % 1048576 = 0) : wordB op (BitVec.ofNat 8 w.toNat) = w := by
  rw [← BitVec.toNat_inj, wordB_toNat, BitVec.toNat_ofNat]; omega

theorem wordX_eq {w : Word} {op : BitVec 4} (hop : w.toNat / 268435456 = op.toNat)
    (hzero : w.toNat / 65536 % 4096 = 0) :
    wordX op (BitVec.ofNat 8 (w.toNat / 256)) (BitVec.ofNat 8 w.toNat) = w := by
  rw [← BitVec.toNat_inj, wordX_toNat, BitVec.toNat_ofNat, BitVec.toNat_ofNat]; omega

/-- A format B word is its OP's word with the immediate in the low byte (R81). -/
theorem wordB_eq_or (op : BitVec 4) (b : Byte) : wordB op b = wordB op 0 ||| b.setWidth 32 := by
  have hb := b.isLt
  have hshift : op.toNat * 268435456 = (op.toNat * 1048576) <<< 8 := by rw [Nat.shiftLeft_eq]; omega
  have hzero : (wordB op 0).toNat = op.toNat * 268435456 := by simp [wordB_toNat]
  rw [← BitVec.toNat_inj, BitVec.toNat_or, wordB_toNat, hzero, BitVec.toNat_setWidth_of_le (by decide), hshift,
    Nat.shiftLeft_add_eq_or_of_lt hb]

/-! The encoder and the decoder undo each other (R81 to R85). -/

theorem decodeN_wordN (op : BitVec 4) (i : Instr) : decodeN (wordN op) i = .ok i := by
  rw [decodeN, if_pos (mustBeZero_wordN op)]

theorem decodeB_wordB (op : BitVec 4) (b : Byte) (mk : Byte → Instr) : decodeB (wordB op b) mk = .ok (mk b) := by
  rw [decodeB, if_pos (mustBeZero_wordB op b), immLow_wordB]

theorem decodeX_wordX (op : BitVec 4) (h l : Byte) (mk : Byte → Byte → Instr) :
    decodeX (wordX op h l) mk = .ok (mk l h) := by
  rw [decodeX, if_pos (mustBeZero_wordX op h l), immLow_wordX, immHigh_wordX]

theorem decode_encode (i : Instr) : decode (encode i) = .ok i := by
  cases i <;> rw [encode, decode]
  case sinitx => simp [decodeX_wordX]
  case sbyte | cseed | cbyte | capply => simp [decodeB_wordB]
  all_goals simp [decodeN_wordN]

theorem encode_of_decode {w : Word} {i : Instr} (h : decode w = .ok i) : encode i = w := by
  rw [decode_eq] at h
  split at h
  case h_1 hop | h_2 hop | h_4 hop | h_6 hop | h_8 hop | h_11 hop =>
    obtain ⟨hzero, rfl⟩ := arithN_ok.1 h
    exact wordN_eq hop hzero
  case h_3 hop =>
    obtain ⟨hzero, rfl⟩ := arithX_ok.1 h
    exact wordX_eq hop hzero
  case h_5 hop | h_7 hop | h_9 hop | h_10 hop =>
    obtain ⟨hzero, rfl⟩ := arithB_ok.1 h
    exact wordB_eq hop hzero
  case h_12 => cases h

/-- The legal words are the encodings, each the one word of its command (R84). -/
theorem decode_eq_ok {w : Word} {i : Instr} : decode w = .ok i ↔ encode i = w :=
  ⟨encode_of_decode, fun h => h ▸ decode_encode i⟩

theorem encode_injective : Function.Injective encode := fun i _ h =>
  Except.ok.inj ((decode_encode i).symm.trans (decode_eq_ok.2 h.symm))

/-- Settles O1: each format's word decodes, by its OP, to the command with the operands it was built from. -/
theorem decodeOfEncodeIsTheCommand : Obligations.DecodeOfEncodeIsTheCommand := fun i _ => decode_encode i

/-- Settles O2: the must-be-0 field of each format leaves OP and the operands as the only bits of a legal word. -/
theorem encodeOfDecodeIsTheWord : Obligations.EncodeOfDecodeIsTheWord := fun _ _ => encode_of_decode

/-! The rows of the opcode map (R83). -/

/-- Every command's word selects the row of its mnemonic. -/
theorem encode_selects_row (i : Instr) :
    ∃ r ∈ opcodeMap, r.mnemonic = i.mnemonic ∧ r.selects (encode i) = true := by
  cases i
  case nop => exact Laws.EncodingRow.nop
  case sinit => exact Laws.EncodingRow.sinit
  case sinitx t0 t1 => exact Laws.EncodingRow.sinitx t0 t1
  case sfeed => exact Laws.EncodingRow.sfeed
  case sbyte d => exact Laws.EncodingRow.sbyte d
  case sum32 => exact Laws.EncodingRow.sum32
  case cseed k => exact Laws.EncodingRow.cseed k
  case cxor => exact Laws.EncodingRow.cxor
  case cbyte d => exact Laws.EncodingRow.cbyte d
  case capply k => exact Laws.EncodingRow.capply k
  case clr => exact Laws.EncodingRow.clr

/-- A word under a mask that clears its `k` low bits, as a number. -/
theorem and_allOnes_shiftLeft_toNat (w : Word) (k : Nat) :
    (w &&& BitVec.allOnes 32 <<< k).toNat = w.toNat / 2 ^ k * 2 ^ k := by
  rw [← BitVec.shiftLeft_ushiftRight, BitVec.toNat_shiftLeft, BitVec.toNat_ushiftRight, Nat.shiftLeft_eq,
    Nat.shiftRight_eq_div_pow]
  exact Nat.mod_eq_of_lt ((Nat.div_mul_le_self _ _).trans_lt w.isLt)

/-- A word that matches a format B pattern is the pattern's OP with an immediate. -/
theorem exists_wordB_of_masked {w : Word} (op : BitVec 4) (h : w &&& 0xFFFFFF00 = wordB op 0) :
    ∃ b, wordB op b = w := by
  have hw : w.toNat / 2 ^ 8 * 2 ^ 8 = op.toNat * 268435456 + 0 := by
    rw [← and_allOnes_shiftLeft_toNat w 8]
    exact (congrArg BitVec.toNat h).trans (wordB_toNat op 0)
  exact ⟨_, wordB_eq (by omega) (by omega)⟩

/-- A word that matches a format X pattern is the pattern's OP with two immediates. -/
theorem exists_wordX_of_masked {w : Word} (op : BitVec 4) (h : w &&& 0xFFFF0000 = wordX op 0 0) :
    ∃ bh bl, wordX op bh bl = w := by
  have hw : w.toNat / 2 ^ 16 * 2 ^ 16 = op.toNat * 268435456 + 0 * 256 + 0 := by
    rw [← and_allOnes_shiftLeft_toNat w 16]
    exact (congrArg BitVec.toNat h).trans (wordX_toNat op 0 0)
  exact ⟨_, _, wordX_eq (by omega) (by omega)⟩

/-- A format N row is selected by one word, its pattern. -/
theorem eq_wordN_of_masked {w : Word} {op : BitVec 4} (h : w &&& 0xFFFFFFFF = wordN op) : wordN op = w :=
  h.symm.trans BitVec.and_allOnes

/-- Every word that selects a row is the word of a command of the row's mnemonic. -/
theorem exists_encode_of_selects {r : OpcodeRow} {w : Word} (hr : r ∈ opcodeMap) (h : r.selects w = true) :
    ∃ i, encode i = w ∧ r.mnemonic = i.mnemonic := by
  simp only [opcodeMap, List.mem_cons, List.not_mem_nil, or_false] at hr
  simp only [OpcodeRow.selects, beq_iff_eq] at h
  rcases hr with rfl | rfl | rfl | rfl | rfl | rfl | rfl | rfl | rfl | rfl | rfl
  · exact ⟨.nop, eq_wordN_of_masked h, rfl⟩
  · exact ⟨.sinit, eq_wordN_of_masked h, rfl⟩
  · obtain ⟨bh, bl, hw⟩ := exists_wordX_of_masked 0x2 h
    exact ⟨.sinitx bl bh, hw, rfl⟩
  · exact ⟨.sfeed, eq_wordN_of_masked h, rfl⟩
  · obtain ⟨b, hw⟩ := exists_wordB_of_masked 0x4 h
    exact ⟨.sbyte b, hw, rfl⟩
  · exact ⟨.sum32, eq_wordN_of_masked h, rfl⟩
  · obtain ⟨b, hw⟩ := exists_wordB_of_masked 0x6 h
    exact ⟨.cseed b, hw, rfl⟩
  · exact ⟨.cxor, eq_wordN_of_masked h, rfl⟩
  · obtain ⟨b, hw⟩ := exists_wordB_of_masked 0x8 h
    exact ⟨.cbyte b, hw, rfl⟩
  · obtain ⟨b, hw⟩ := exists_wordB_of_masked 0x9 h
    exact ⟨.capply b, hw, rfl⟩
  · exact ⟨.clr, eq_wordN_of_masked h, rfl⟩

/-- No two rows bear the same mnemonic. -/
theorem opcodeMap_mnemonic_injective :
    ∀ r ∈ opcodeMap, ∀ r' ∈ opcodeMap, r.mnemonic = r'.mnemonic → r = r' := by decide

/-- Settles O3: the words that select a row are the encodings of its commands, and a word encodes one command, whose
mnemonic is that of one row. -/
theorem wordSelectsAtMostOneRow : Obligations.WordSelectsAtMostOneRow := by
  intro w
  simp only [decode_eq_ok]
  refine ⟨?_, fun r hr h => exists_encode_of_selects hr h, fun r hr r' hr' h h' => ?_, ?_, ?_⟩
  · rintro i rfl
    obtain ⟨r, hr, hm, hs⟩ := encode_selects_row i
    exact ⟨r, hr, hs, hm⟩
  · obtain ⟨i, rfl, hm⟩ := exists_encode_of_selects hr h
    obtain ⟨j, hj, hm'⟩ := exists_encode_of_selects hr' h'
    obtain rfl := encode_injective hj
    exact opcodeMap_mnemonic_injective r hr r' hr' (hm.trans hm'.symm)
  · rintro t0 t1 rfl
    exact ⟨(immLow_wordX _ t1 t0).symm, (immHigh_wordX _ t1 t0).symm⟩
  · rintro b (rfl | rfl | rfl | rfl)
    all_goals exact (immLow_wordB _ b).symm

/-! The number of legal words (R86). -/

/-- As many words decode to commands of a set as the set has commands. -/
theorem ncard_decode_mem (S : Set Instr) : Set.ncard {w | ∃ i ∈ S, decode w = .ok i} = S.ncard := by
  simp only [decode_eq_ok]
  exact Set.ncard_image_of_injective S encode_injective

theorem card_byte : Nat.card Byte = 256 := (Nat.card_congr BitVec.equivFin.toEquiv).trans (Nat.card_fin _)

/-- The format N commands (R81). -/
def formatN : Set Instr := {i | i ∈ ([.nop, .sinit, .sfeed, .sum32, .cxor, .clr] : List Instr)}

/-- The format B commands (R81). -/
def formatB : Set Instr :=
  Set.range Instr.sbyte ∪ (Set.range Instr.cseed ∪ (Set.range Instr.cbyte ∪ Set.range Instr.capply))

/-- The format X commands (R81). -/
def formatX : Set Instr := Set.range (Function.uncurry Instr.sinitx)

theorem ncard_formatN : formatN.ncard = 6 := by
  rw [formatN, ← List.coe_toFinset, Set.ncard_coe_finset]; rfl

theorem ncard_range_of_byte {mk : Byte → Instr} (h : Function.Injective mk) : (Set.range mk).ncard = 256 :=
  (Set.ncard_range_of_injective h).trans card_byte

theorem ncard_formatB : formatB.ncard = 1024 := by
  rw [formatB, Set.ncard_union_eq (by simp [Set.disjoint_left]), Set.ncard_union_eq (by simp [Set.disjoint_left]),
    Set.ncard_union_eq (by simp [Set.disjoint_left]), ncard_range_of_byte fun _ _ => Instr.sbyte.inj,
    ncard_range_of_byte fun _ _ => Instr.cseed.inj, ncard_range_of_byte fun _ _ => Instr.cbyte.inj,
    ncard_range_of_byte fun _ _ => Instr.capply.inj]

theorem ncard_formatX : formatX.ncard = 65536 := by
  have hinj : Function.Injective (Function.uncurry Instr.sinitx) := fun _ _ h => Prod.ext_iff.2 (Instr.sinitx.inj h)
  rw [formatX, Set.ncard_range_of_injective hinj, Nat.card_prod, card_byte]

/-- Every command has one of the three formats (R81). -/
theorem univ_eq_formats : (Set.univ : Set Instr) = formatN ∪ (formatB ∪ formatX) := by
  ext i
  cases i <;> simp [formatN, formatB, formatX]

theorem formatN_disjoint : Disjoint formatN (formatB ∪ formatX) :=
  Set.disjoint_left.2 fun i => by cases i <;> simp [formatN, formatB, formatX]

theorem formatB_disjoint : Disjoint formatB formatX :=
  Set.disjoint_left.2 fun i => by cases i <;> simp [formatB, formatX]

theorem ncard_instr : (Set.univ : Set Instr).ncard = 66566 := by
  have : Finite Instr := .of_injective encode encode_injective
  rw [univ_eq_formats, Set.ncard_union_eq formatN_disjoint, Set.ncard_union_eq formatB_disjoint, ncard_formatN,
    ncard_formatB, ncard_formatX]

/-- Settles O4: the legal words of each format are as many as its commands, and every command has one format. -/
theorem legalWordsNumber66566 : Obligations.LegalWordsNumber66566 := by
  refine ⟨(ncard_decode_mem formatN).trans ncard_formatN, ?_, ?_, ?_⟩
  · rw [← ncard_formatB, ← ncard_decode_mem]
    simp [formatB, or_and_right, exists_or]
  · rw [← ncard_formatX, ← ncard_decode_mem]
    simp [formatX]
  · rw [← ncard_instr, ← ncard_decode_mem]
    simp

/-! Reserved words (R85). -/

/-- The command word is reserved: its OP is 0xB to 0xF, or a must-be-0 field of its format is not 0 (R85). -/
def Reserved (w : Word) : Prop :=
  11 ≤ (w.extractLsb' 28 4).toNat ∨
    ((w.extractLsb' 28 4).toNat ∈ [0, 1, 3, 5, 7, 10] ∧ w.extractLsb' 0 28 ≠ 0) ∨
    ((w.extractLsb' 28 4).toNat ∈ [4, 6, 8, 9] ∧ w.extractLsb' 8 20 ≠ 0) ∨
    ((w.extractLsb' 28 4).toNat = 2 ∧ w.extractLsb' 16 12 ≠ 0)

theorem not_reserved_encode (i : Instr) : ¬ Reserved (encode i) := by
  rw [Reserved, ← opField]
  cases i <;> rw [encode]
  case sinitx => rw [opField_wordX, mustBeZero_wordX]; simp
  case sbyte | cseed | cbyte | capply => rw [opField_wordB, mustBeZero_wordB]; simp
  all_goals rw [opField_wordN, mustBeZero_wordN]; simp

/-- A reserved word is Illegal, since a legal one is an encoding (R84, R85). -/
theorem decode_of_reserved {w : Word} (h : Reserved w) : ∃ e, decode w = .error e := by
  cases hd : decode w with
  | error e => exact ⟨e, rfl⟩
  | ok i => exact absurd (encode_of_decode hd ▸ h) (not_reserved_encode i)

/-- Settles O5: a reserved word is Illegal, and an Illegal word at CMD records ILLEGAL only. -/
theorem reservedWordsOnlyRecordIllegal : Obligations.ReservedWordsOnlyRecordIllegal := by
  intro w s h
  obtain ⟨e, he⟩ := decode_of_reserved h
  rw [Machine.access_cmdWrite, Machine.performWord_of_error he]

end Sys2Proof

namespace Sys2Proof.Machine

/-! The pseudo-instructions (R88). -/

/-- A command's line performs the command (R87). -/
theorem access_commandLine (i : Instr) (s : State) : access (commandLine i) s = exec i s :=
  performWord_of_ok (decode_encode i) s

theorem access_st32_src (a : Nat) (s : State) : access (st32 .src a) s = .next (s.withSrc (BitVec.ofNat 17 a)) := by
  rw [st32, access_writeReg (by decide), State.writeReg, BitVec.setWidth_ofNat_of_le (by decide)]

theorem access_st32_len (n : Nat) (s : State) : access (st32 .len n) s = .next (s.withLen (BitVec.ofNat 18 n)) := by
  rw [st32, access_writeReg (by decide), State.writeReg, BitVec.setWidth_ofNat_of_le (by decide)]

/-- `clrerr` clears the record and changes nothing else (R37, R88). -/
theorem accessAll_clrerrLines (s : State) : accessAll clrerrLines s = .next (clearError s) := by
  rw [clrerrLines, st32, accessAll_cons, access_writeReg (by decide)]
  rfl

/-- A memory holds `apply` of a sequence if each byte of the sequence stands there XORed with the mask of its
position (R144). -/
theorem Memory.holds_applyKey {p : Params} {m : Memory} {a : Nat} {d : List Byte} {k : Byte}
    (h : ∀ i b, d[i]? = some b → m.read (a + i) = some (b ^^^ maskAt p k i)) : m.holds a (applyKey p d k) := by
  intro i hi
  rw [applyKey_length] at hi
  rw [applyKey_getElem?, h i _ (List.getElem?_eq_getElem hi), List.getElem?_eq_getElem hi, Option.map_some]

/-- CAPPLY, in place or between regions that do not overlap, leaves `apply` of the source bytes at the destination and
changes no other byte (R139, R142). -/
theorem exec_capply_applies {s : State} {d : List Byte} (k : Byte) (hlen : s.len.toNat = d.length)
    (hsrc : s.src.toNat + d.length ≤ bufBytes) (hdst : s.dst.toNat + d.length ≤ bufBytes) (hsound : s.regionsSound)
    (hd : s.buf.holds s.src.toNat d) :
    ∃ m, exec (.capply k) s = .next ((s.withCipher (CipherState.atPosition k d.length)).withBuf m) ∧
      m.holds s.dst.toNat (applyKey Config.params d k) ∧
      ∀ a, a < s.dst.toNat ∨ s.dst.toNat + d.length ≤ a → m.read a = s.buf.read a := by
  have hcheck : commandError s (.capply k) = none := by
    rw [commandError, if_neg]
    omega
  have hregions : s.src.toNat = s.dst.toNat ∨ s.src.toNat + d.length ≤ s.dst.toNat ∨
      s.dst.toNat + d.length ≤ s.src.toNat := by
    rw [← hlen]
    exact hsound.imp_left (congrArg BitVec.toNat)
  obtain ⟨m, hloop, hbytes, hother⟩ := cipherRegion_sound (p := Config.params) (c := .start k) rfl hd hregions
  simp only [CipherState.start_eq, CipherState.advance_iterate_atPosition, CipherState.mask_atPosition,
    Nat.zero_add] at hloop hbytes
  refine ⟨m, ?_, Memory.holds_applyKey hbytes, hother⟩
  rw [exec_of_none hcheck, effect, runKeystream, State.regionLen, hlen, State.srcAddr, State.dstAddr,
    CipherState.start_eq, hloop]

/-- SUM32 of a written, non-empty region leaves `checksum32` of it in SUM (R112). -/
theorem exec_sum32_computes {s : State} {d : List Byte} (hne : d ≠ []) (hlen : s.len.toNat = d.length)
    (hsrc : s.src.toNat + d.length ≤ bufBytes) (hd : s.buf.holds s.src.toNat d) :
    ∃ c : ChecksumState, exec .sum32 s = .next (s.withChecksum c) ∧ checksum32 Config.params d = some c.acc.sum := by
  have hpos : 0 < d.length := List.length_pos_iff.2 hne
  have hmid : d.length / 2 < d.length := Nat.div_lt_self hpos (by decide)
  have hcheck : commandError s .sum32 = none := by
    rw [commandError, if_neg (fun h => by rw [h] at hlen; exact hpos.ne hlen), if_neg (by omega)]
  have hinit : s.initialChecksum = .ok (.start (d.length % 256) d[d.length / 2].toNat) := by
    refine State.initialChecksum_eq_ok.2 ⟨d[d.length / 2], ?_, by rw [hlen]⟩
    rw [hlen, hd _ hmid, List.getElem?_eq_getElem hmid]
  have hsource : s.sourceBytes = .ok d := State.sourceBytes_eq_ok.2 ⟨hlen.symm, hd⟩
  refine ⟨_, by rw [exec_of_none hcheck, effect, hinit, hsource], ?_⟩
  rw [checksum32, List.getElem?_eq_getElem hmid,
    ← checksumFrom_eq_feedAll Config.params d 0 (.start (d.length % 256) d[d.length / 2].toNat) rfl]
  rfl

/-- A region inside BUF is kept as written, its address too unless it is empty at the end of BUF (R34 to R36). -/
theorem toNat_ofNat_of_region {a n : Nat} (h : a + n ≤ bufBytes) :
    (BitVec.ofNat 18 n).toNat = n ∧ (n ≠ 0 → (BitVec.ofNat 17 a).toNat = a) := by
  simp only [bufBytes] at h
  exact ⟨Nat.mod_eq_of_lt (by omega), fun hn => Nat.mod_eq_of_lt (by omega)⟩

/-- SRC, DST and LEN as `region a, b, n` leaves them (R88). -/
def State.withRegion (s : State) (a b n : Nat) : State :=
  ((s.withSrc (BitVec.ofNat 17 a)).withDst (BitVec.ofNat 17 b)).withLen (BitVec.ofNat 18 n)

@[simp] theorem State.withRegion_src (s : State) (a b n : Nat) : (s.withRegion a b n).src = BitVec.ofNat 17 a := rfl
@[simp] theorem State.withRegion_dst (s : State) (a b n : Nat) : (s.withRegion a b n).dst = BitVec.ofNat 17 b := rfl
@[simp] theorem State.withRegion_len (s : State) (a b n : Nat) : (s.withRegion a b n).len = BitVec.ofNat 18 n := rfl
@[simp] theorem State.withRegion_buf (s : State) (a b n : Nat) : (s.withRegion a b n).buf = s.buf := rfl

/-- `apply` is `region` and then CAPPLY (R88). -/
theorem accessAll_applyLines_eq (s : State) (a b n : Nat) (k : Byte) :
    accessAll (applyLines a b n k) s = exec (.capply k) (s.withRegion a b n) := by
  rw [applyLines, accessAll_append, accessAll_regionLines, andThen_next, accessAll_cons, access_commandLine]
  show andThen (exec (.capply k) (s.withRegion a b n)) (accessAll []) = _
  cases exec (.capply k) (s.withRegion a b n) <;> rfl

/-- `apply` leaves `apply` of the source bytes at the destination (R88). -/
theorem accessAll_applyLines {s : State} {a b : Nat} {d : List Byte} (k : Byte) (ha : a + d.length ≤ bufBytes)
    (hb : b + d.length ≤ bufBytes) (hs : a = b ∨ a + d.length ≤ b ∨ b + d.length ≤ a) (hd : s.buf.holds a d) :
    ∃ t, accessAll (applyLines a b d.length k) s = .next t ∧ t.buf.holds b (applyKey Config.params d k) := by
  rw [accessAll_applyLines_eq]
  obtain ⟨hlen, ha'⟩ := toNat_ofNat_of_region ha
  obtain ⟨-, hb'⟩ := toNat_ofNat_of_region hb
  by_cases hne : d.length = 0
  · obtain rfl := List.length_eq_zero_iff.1 hne
    have hsrc := (BitVec.ofNat 17 a).isLt
    have hdst := (BitVec.ofNat 17 b).isLt
    have hsound : (s.withRegion a b 0).regionsSound := .inr (Nat.le_total _ _)
    obtain ⟨m, hexec, -, -⟩ := exec_capply_applies (d := []) k hlen hsrc.le hdst.le hsound (Memory.holds_nil _ _)
    exact ⟨_, hexec, Memory.holds_nil _ _⟩
  · have hsrc := ha' hne
    have hdst := hb' hne
    have hsound : (s.withRegion a b d.length).regionsSound := by
      rw [State.regionsSound, ← BitVec.toNat_inj, State.withRegion_src, State.withRegion_dst, State.withRegion_len, hsrc,
        hdst, hlen]
      exact hs
    obtain ⟨m, hexec, hm, -⟩ := exec_capply_applies k hlen (by simpa [hsrc] using ha) (by simpa [hdst] using hb)
      hsound (by simpa [hsrc] using hd)
    exact ⟨_, hexec, by simpa [hdst] using hm⟩

/-- `checksum` writes SRC and LEN, performs SUM32 and reads SUM (R88). -/
theorem accessAll_checksumLines_eq {s t : State} {a n : Nat}
    (h : exec .sum32 ((s.withSrc (BitVec.ofNat 17 a)).withLen (BitVec.ofNat 18 n)) = .next t) :
    accessAll (checksumLines a n) s = .next (t.returnData t.checksum.acc.sum) := by
  rw [checksumLines, accessAll_cons, access_st32_src, andThen_next, accessAll_cons, access_st32_len, andThen_next,
    accessAll_cons, access_commandLine, h, andThen_next, accessAll_cons, ld32, access_readReg, andThen_next,
    accessAll_nil, State.readReg]

/-- `checksum` of a written, non-empty region returns `checksum32` of it (R88). -/
theorem accessAll_checksumLines {s : State} {a : Nat} {d : List Byte} (hne : d ≠ []) (ha : a + d.length ≤ bufBytes)
    (hd : s.buf.holds a d) :
    ∃ t sum, accessAll (checksumLines a d.length) s = .next t ∧ checksum32 Config.params d = some sum ∧
      t.readLog = sum :: s.readLog := by
  obtain ⟨hlen, ha'⟩ := toNat_ofNat_of_region ha
  have hsrc := ha' fun h => hne (List.length_eq_zero_iff.1 h)
  obtain ⟨c, hexec, hsum⟩ :=
    exec_sum32_computes (s := (s.withSrc (BitVec.ofNat 17 a)).withLen (BitVec.ofNat 18 d.length)) hne hlen
      (by simpa [hsrc] using ha) (by simpa [hsrc] using hd)
  exact ⟨_, _, accessAll_checksumLines_eq hexec, hsum, rfl⟩

/-- Settles O21: the accesses are the definitions with CAPPLY's word written out, and each line's accesses are followed
one by one. -/
theorem pseudoInstructionsComputeTheSourceFunctions : Obligations.PseudoInstructionsComputeTheSourceFunctions := by
  intro s a b n d k
  refine ⟨rfl, ?_, rfl, rfl, accessAll_clrerrLines s, accessAll_regionLines a b n s,
    fun ha hb hs hd => accessAll_applyLines k ha hb hs hd, fun hne ha hd => accessAll_checksumLines hne ha hd⟩
  have hword : encode (.capply k) = 0x90000000 ||| k.setWidth 32 := wordB_eq_or 0x9 k
  rw [← hword]
  rfl

end Sys2Proof.Machine

/-! The family of 40_checksum.md: the outcomes of the five checksum commands, SUM32 as `checksum32` of its region, each
lane as a sum over its own positions, and SFEED and SUM32 against sequences of smaller commands. -/

namespace Sys2Proof.Machine

variable {p : Params} {s t : State} {c : ChecksumState} {f : Fault} {b m : Byte} {bs : List Byte}

/-! The words of SINITX and SBYTE (R81, R103, R109). -/

/-- A format X word is its OP's word with the immediates in the two low bytes (R81). -/
theorem wordX_eq_or (op : BitVec 4) (h l : Byte) :
    wordX op h l = wordX op 0 0 ||| (h.setWidth 32 <<< 8) ||| l.setWidth 32 := by
  have hh := h.isLt
  have hl := l.isLt
  have hzero : (wordX op 0 0).toNat = op.toNat * 268435456 := by simp [wordX_toNat]
  have hop : (wordX op 0 0).toNat = (op.toNat * 4096) <<< 16 := by rw [hzero, Nat.shiftLeft_eq]; omega
  have hhigh : (h.setWidth 32 <<< 8).toNat = h.toNat * 256 := by
    rw [BitVec.toNat_shiftLeft, BitVec.toNat_setWidth_of_le (by decide), Nat.shiftLeft_eq]; omega
  have hjoin : (op.toNat * 4096) <<< 16 + h.toNat * 256 = (op.toNat * 1048576 + h.toNat) <<< 8 := by
    simp only [Nat.shiftLeft_eq]; omega
  rw [← BitVec.toNat_inj, BitVec.toNat_or, BitVec.toNat_or, hop, hhigh, BitVec.toNat_setWidth_of_le (by decide),
    ← Nat.shiftLeft_add_eq_or_of_lt (by omega), hjoin, ← Nat.shiftLeft_add_eq_or_of_lt hl, Nat.shiftLeft_eq,
    wordX_toNat]
  omega

/-- Settles O26: the word is the encoding, and SINITX has no check. -/
theorem sinitxInitialisesFromImmediates : Obligations.SinitxInitialisesFromImmediates :=
  fun imml immh _ => ⟨decode_eq_ok.2 (wordX_eq_or 0x2 immh imml), rfl⟩

/-! The checks (R101, R107, R110, R113). -/

theorem commandError_sinit_empty (h : s.len = 0) : commandError s .sinit = some .empty := by
  rw [commandError, if_pos h]

theorem commandError_sinit_range (h : s.len ≠ 0) (hr : bufBytes < s.src.toNat + s.len.toNat) :
    commandError s .sinit = some .range := by
  rw [commandError, if_neg h, if_pos hr]

theorem commandError_sinit_none (h : s.len ≠ 0) (hr : s.src.toNat + s.len.toNat ≤ bufBytes) :
    commandError s .sinit = none := by
  rw [commandError, if_neg h, if_neg (Nat.not_lt.2 hr)]

theorem commandError_sfeed_nosinit (h : s.checksum.sinit = false) : commandError s .sfeed = some .nosinit := by
  rw [commandError, if_pos h]

theorem commandError_sfeed_range (h : s.checksum.sinit = true) (hr : bufBytes < s.src.toNat + s.len.toNat) :
    commandError s .sfeed = some .range := by
  rw [commandError, if_neg (by simp [h]), if_pos hr]

theorem commandError_sfeed_none (h : s.checksum.sinit = true) (hr : s.src.toNat + s.len.toNat ≤ bufBytes) :
    commandError s .sfeed = none := by
  rw [commandError, if_neg (by simp [h]), if_neg (Nat.not_lt.2 hr)]

theorem commandError_sbyte_nosinit {d : Byte} (h : s.checksum.sinit = false) :
    commandError s (.sbyte d) = some .nosinit := by
  rw [commandError, if_pos h]

theorem commandError_sbyte_none {d : Byte} (h : s.checksum.sinit = true) : commandError s (.sbyte d) = none := by
  rw [commandError, if_neg (by simp [h])]

/-- SUM32 has the checks of SINIT (R113). -/
theorem commandError_sum32 (s : State) : commandError s .sum32 = commandError s .sinit := rfl

theorem exec_sum32_empty (h : s.len = 0) : exec .sum32 s = .next (s.recorded .empty) :=
  exec_of_error ((commandError_sum32 s).trans (commandError_sinit_empty h))

theorem exec_sum32_range (h : s.len ≠ 0) (hr : bufBytes < s.src.toNat + s.len.toNat) :
    exec .sum32 s = .next (s.recorded .range) :=
  exec_of_error ((commandError_sum32 s).trans (commandError_sinit_range h hr))

theorem exec_sum32_eq_effect (h : s.len ≠ 0) (hr : s.src.toNat + s.len.toNat ≤ bufBytes) :
    exec .sum32 s = effect .sum32 s :=
  exec_of_none ((commandError_sum32 s).trans (commandError_sinit_none h hr))

theorem State.len_toNat_pos (h : s.len ≠ 0) : 0 < s.len.toNat :=
  Nat.pos_of_ne_zero fun hz => h ((State.regionLen_eq_zero s).1 hz)

/-! The effects of the region commands, by what their reads answer (R100, R106, R112). -/

theorem effect_sinit_of_ok (h : s.initialChecksum = .ok c) : effect .sinit s = .next (s.withChecksum c) := by
  rw [effect, h]

theorem effect_sinit_of_error (h : s.initialChecksum = .error f) : effect .sinit s = .fault f := by
  rw [effect, h]

theorem effect_sfeed_of_ok (h : s.sourceBytes = .ok bs) :
    effect .sfeed s = .next (s.withChecksum (s.checksum.feedAll Config.params bs)) := by
  rw [effect, h]

theorem effect_sfeed_of_error (h : s.sourceBytes = .error f) : effect .sfeed s = .fault f := by
  rw [effect, h]

theorem effect_sum32_of_ok (hc : s.initialChecksum = .ok c) (h : s.sourceBytes = .ok bs) :
    effect .sum32 s = .next (s.withChecksum (c.feedAll Config.params bs)) := by
  rw [effect, hc, h]

/-- SUM32 is the body of SINIT followed by the loop of SFEED, as one command (R112). -/
theorem effect_sum32_eq (s : State) : effect .sum32 s = andThen (effect .sinit s) (effect .sfeed) := by
  cases hc : s.initialChecksum with
  | error f => rw [effect_sinit_of_error hc, effect, hc, andThen_fault]
  | ok c =>
    rw [effect_sinit_of_ok hc, andThen_next, effect, effect, hc, State.withChecksum_sourceBytes]
    rfl

/-- A SUM32 that completes past its checks has read a middle byte and a whole region (R112). -/
theorem effect_sum32_next (h : effect .sum32 s = .next t) :
    ∃ c bs, s.initialChecksum = .ok c ∧ s.sourceBytes = .ok bs ∧
      t = s.withChecksum (c.feedAll Config.params bs) := by
  simpa using effect_next h

/-- A source region that is written reads as some byte sequence (R60, R62). -/
theorem State.sourceWritten.exists_sourceBytes (h : s.sourceWritten) : ∃ bs, s.sourceBytes = .ok bs := by
  obtain ⟨bs, hlen, hbs⟩ := Memory.exists_holds h
  exact ⟨bs, State.sourceBytes_eq_ok.2 ⟨hlen, hbs⟩⟩

/-- The read of the source region stops at its first unwritten byte (R62). -/
theorem State.sourceBytes_of_unwritten {i : Nat} (hi : i < s.len.toNat)
    (hw : ∀ j, j < i → s.buf.written (s.src.toNat + j)) (hn : ¬ s.buf.written (s.src.toNat + i)) :
    s.sourceBytes = .error (.uninitRead (s.src.toNat + i)) :=
  State.sourceBytes_eq_error.2 ⟨i, hi, hw, hn, rfl⟩

/-- SINIT's read of a written middle byte (R100). -/
theorem State.initialChecksum_of_read (h : s.buf.read (s.src.toNat + s.len.toNat / 2) = some m) :
    s.initialChecksum = .ok (.start (s.len.toNat % 256) m.toNat) :=
  State.initialChecksum_eq_ok.2 ⟨m, h, rfl⟩

/-- SINIT's read of an unwritten middle byte (R101). -/
theorem State.initialChecksum_of_unwritten (h : s.buf.read (s.src.toNat + s.len.toNat / 2) = none) :
    s.initialChecksum = .error (.uninitRead (s.src.toNat + s.len.toNat / 2)) :=
  State.initialChecksum_eq_error.2 ⟨h, rfl⟩

/-- Settles O25: the two checks, then the read of the middle byte. -/
theorem sinitInitialisesFromTheRegion : Obligations.SinitInitialisesFromTheRegion := by
  refine ⟨decode_eq_ok.2 rfl, fun s => ⟨fun h0 => exec_of_error (commandError_sinit_empty h0),
    fun h0 hr => exec_of_error (commandError_sinit_range h0 hr), fun h0 hr => ?_⟩⟩
  rw [exec_of_none (commandError_sinit_none h0 hr)]
  exact ⟨fun m hm => effect_sinit_of_ok (State.initialChecksum_of_read hm),
    fun hn => effect_sinit_of_error (State.initialChecksum_of_unwritten hn)⟩

/-! SBYTE and the loop of SFEED (R106, R109). -/

theorem exec_sbyte (h : s.checksum.sinit = true) (d : Byte) :
    exec (.sbyte d) s = .next (s.withChecksum (s.checksum.feed Config.params d)) := by
  rw [exec_of_none (commandError_sbyte_none h), effect]

/-- Settles O27: the check, then the per-byte step, whose lane takes the masked byte. -/
theorem sbyteFeedsOneByte : Obligations.SbyteFeedsOneByte := by
  refine fun d s => ⟨decode_eq_ok.2 (wordB_eq_or 0x4 d), fun h => exec_of_error (commandError_sbyte_nosinit h),
    fun h => ⟨_, ?_, fun l => Lanes.get_addTo s.checksum.acc s.checksum.spos l _⟩⟩
  rw [exec_sbyte h, ← h]
  rfl

/-- The loop after `i + 1` bytes is one step on from the loop after `i` bytes (R106). -/
theorem ChecksumState.feedAll_take_succ {i : Nat} (p : Params) (c : ChecksumState) (h : bs[i]? = some b) :
    c.feedAll p (bs.take (i + 1)) = (c.feedAll p (bs.take i)).feed p b := by
  rw [List.take_add_one, h, ChecksumState.feedAll_append]
  rfl

/-- Settles O28: the two checks, then the read of the region; the loop's `i`-th state is the one after its first `i`
bytes. -/
theorem sfeedFeedsTheRegionInOrder : Obligations.SfeedFeedsTheRegionInOrder := by
  refine ⟨decode_eq_ok.2 rfl, fun s => ⟨fun h => exec_of_error (commandError_sfeed_nosinit h),
    fun h hr => exec_of_error (commandError_sfeed_range h hr), fun h hr => ?_⟩⟩
  rw [exec_of_none (commandError_sfeed_none h hr)]
  refine ⟨fun hw => ?_, fun i hi hw hn => effect_sfeed_of_error (State.sourceBytes_of_unwritten hi hw hn)⟩
  obtain ⟨bs, hbs⟩ := hw.exists_sourceBytes
  obtain ⟨hlen, hholds⟩ := State.sourceBytes_eq_ok.1 hbs
  have hall : bs.take s.len.toNat = bs := by rw [← hlen, List.take_length]
  refine ⟨fun i => s.checksum.feedAll Config.params (bs.take i), rfl, fun i b hi hb => ?_, ?_⟩
  · have hget : bs[i]? = some b := (hholds i (hlen ▸ hi)).symm.trans hb
    simp only [ChecksumState.feedAll_take_succ Config.params s.checksum hget]
    exact ⟨rfl, rfl, rfl, (s.checksum.feedAll_sinit Config.params _).trans h, fun l => Lanes.get_addTo _ _ l _⟩
  · simp only [hall]
    exact effect_sfeed_of_ok hbs

/-- SFEED of an initialised checksum over a region that holds `bs` completes (R106). -/
theorem exec_sfeed_of_holds (h : s.checksum.sinit = true) (hr : s.src.toNat + s.len.toNat ≤ bufBytes)
    (hlen : s.len.toNat = bs.length) (hbs : s.buf.holds s.src.toNat bs) :
    exec .sfeed s = .next (s.withChecksum (s.checksum.feedAll Config.params bs)) := by
  rw [exec_of_none (commandError_sfeed_none h hr),
    effect_sfeed_of_ok (State.sourceBytes_eq_ok.2 ⟨hlen.symm, hbs⟩)]

/-- Settles O33: all three complete, and the loop over a concatenation is the loop over its parts in order. -/
theorem sfeedSplits : Obligations.SfeedSplits := by
  intro s s1 s2 r1 r2 h heq hr1 hlen1 h1 hr2 hlen2 h2 hr hlen hcat
  have hinit1 : s1.checksum.sinit = true := by rw [heq, h]
  have hinit2 : (s1.checksum.feedAll Config.params r1).sinit = true := by rw [ChecksumState.feedAll_sinit, hinit1]
  refine ⟨_, _, _, exec_sfeed_of_holds h hr (hlen.trans List.length_append.symm) hcat,
    exec_sfeed_of_holds hinit1 hr1 hlen1 h1,
    exec_sfeed_of_holds (s := s2.withChecksum (s1.checksum.feedAll Config.params r1)) hinit2 hr2 hlen2 h2, ?_⟩
  simp only [State.withChecksum_checksum, heq, ChecksumState.feedAll_append]

/-! SUM32 over a region that holds a payload (R112, R113). -/

/-- Settles O29: the checks of SINIT, then the middle byte, then the region in order. -/
theorem sum32ChecksThenReadsMiddleFirst : Obligations.Sum32ChecksThenReadsMiddleFirst := by
  refine fun s => ⟨exec_sum32_empty, exec_sum32_range, fun h0 hr => ?_⟩
  rw [exec_sum32_eq_effect h0 hr]
  refine ⟨fun hw => ?_, fun hn => ?_, fun hm i hi hw hn => ?_⟩
  · have hmid : s.len.toNat / 2 < s.len.toNat := Nat.div_lt_self (State.len_toNat_pos h0) (by decide)
    obtain ⟨m, hm⟩ := Memory.written_iff.1 (hw _ hmid)
    obtain ⟨bs, hbs⟩ := hw.exists_sourceBytes
    exact ⟨_, effect_sum32_of_ok (State.initialChecksum_of_read hm) hbs, ChecksumState.feedAll_sinit ..⟩
  · have hmid := State.initialChecksum_of_unwritten (Memory.not_written.1 hn)
    rw [effect_sum32_eq, effect_sinit_of_error hmid, andThen_fault]
  · obtain ⟨m, hm⟩ := Memory.written_iff.1 hm
    rw [effect_sum32_eq, effect_sinit_of_ok (State.initialChecksum_of_read hm), andThen_next]
    exact effect_sfeed_of_error (State.sourceBytes_of_unwritten hi hw hn)

/-- The checksum state after SUM32 of a payload `bs` with middle byte `m` (R112). -/
def ChecksumState.ofPayload (p : Params) (bs : List Byte) (m : Byte) : ChecksumState :=
  (ChecksumState.start (bs.length % 256) m.toNat).feedAll p bs

@[simp] theorem ChecksumState.ofPayload_sinit (p : Params) (bs : List Byte) (m : Byte) :
    (ofPayload p bs m).sinit = true := feedAll_sinit ..

theorem ChecksumState.ofPayload_spos_toNat (p : Params) (bs : List Byte) (m : Byte) :
    (ofPayload p bs m).spos.toNat = bs.length % 4 := by
  rw [ofPayload, feedAll_spos]
  simp

/-- `checksum32` of a payload is SUM of that state (R15, R112). -/
theorem checksum32_eq (p : Params) (hm : bs[bs.length / 2]? = some m) :
    checksum32 p bs = some (ChecksumState.ofPayload p bs m).acc.sum := by
  rw [checksum32, hm, ChecksumState.ofPayload, ← checksumFrom_eq_feedAll p bs 0 _ rfl]
  rfl

/-- SUM32 over a region that holds a payload completes and changes the checksum state only (R112). -/
theorem exec_sum32_of_holds (hlen : bs.length = s.len.toNat) (hr : s.src.toNat + s.len.toNat ≤ bufBytes)
    (hbs : s.buf.holds s.src.toNat bs) (hm : bs[bs.length / 2]? = some m) :
    exec .sum32 s = .next (s.withChecksum (.ofPayload Config.params bs m)) := by
  have hmid : bs.length / 2 < bs.length := (List.getElem?_eq_some_iff.1 hm).1
  have h0 : s.len ≠ 0 := by
    intro h
    rw [h] at hlen
    exact absurd hmid (by simp [hlen])
  have hread : s.buf.read (s.src.toNat + s.len.toNat / 2) = some m := by rw [← hlen, hbs _ hmid, hm]
  rw [exec_sum32_eq_effect h0 hr, effect_sum32_of_ok (State.initialChecksum_of_read hread)
    (State.sourceBytes_eq_ok.2 ⟨hlen, hbs⟩), ChecksumState.ofPayload, hlen]

/-- Past the checks SUM32 answers what SINIT and then SFEED answer, since SINIT initialises and keeps the region
(R112). -/
theorem exec_sum32_eq_sinit_sfeed (h : s.len ≠ 0) (hr : s.src.toNat + s.len.toNat ≤ bufBytes) :
    exec .sum32 s = andThen (exec .sinit s) (exec .sfeed) := by
  rw [exec_sum32_eq_effect h hr, exec_of_none (commandError_sinit_none h hr), effect_sum32_eq]
  cases hc : s.initialChecksum with
  | error f => rw [effect_sinit_of_error hc, andThen_fault, andThen_fault]
  | ok c =>
    have hsfeed : commandError (s.withChecksum c) .sfeed = none :=
      commandError_sfeed_none (State.initialChecksum_bounds hc).1 hr
    rw [effect_sinit_of_ok hc, andThen_next, andThen_next, exec_of_none hsfeed]

/-- Settles O30: the checks of SINIT, the composition, and the payload's checksum state. -/
theorem sum32ComputesChecksum32 : Obligations.Sum32ComputesChecksum32 := by
  refine ⟨decode_eq_ok.2 rfl, fun s => ⟨exec_sum32_empty, exec_sum32_range,
    fun h0 hr => ⟨exec_sum32_eq_sinit_sfeed h0 hr, fun bs hlen hbs => ?_⟩⟩⟩
  have hmid : bs.length / 2 < bs.length := Nat.div_lt_self (hlen ▸ State.len_toNat_pos h0) (by decide)
  have hm := List.getElem?_eq_getElem hmid
  exact ⟨_, _, exec_sum32_of_holds hlen hr hbs hm, checksum32_eq _ hm, rfl, ChecksumState.ofPayload_spos_toNat ..,
    ChecksumState.ofPayload_sinit .., rfl⟩

/-- One SBYTE a byte is the loop of SFEED over the bytes (R109). -/
theorem execAll_sbyte (bs : List Byte) (h : s.checksum.sinit = true) :
    execAll (bs.map .sbyte) s = .next (s.withChecksum (s.checksum.feedAll Config.params bs)) := by
  induction bs generalizing s with
  | nil => rfl
  | cons b bs ih =>
    rw [List.map_cons, execAll, exec_sbyte h, andThen_next]
    exact ih (s := s.withChecksum (s.checksum.feed Config.params b)) h

/-- Settles O32: SINITX leaves the state SUM32 starts its loop from, and SBYTE of each byte is that loop. -/
theorem streamingEqualsSum32 : Obligations.StreamingEqualsSum32 := by
  intro s u bs m _ hlen hr hbs hm
  refine ⟨_, _, exec_sum32_of_holds hlen hr hbs hm, ?_, rfl, checksum32_eq _ hm⟩
  have hstart : exec (.sinitx (BitVec.ofNat 8 bs.length) m) u =
      .next (u.withChecksum (.start (bs.length % 256) m.toNat)) := by
    rw [exec, execSinitx, BitVec.toNat_ofNat]
  rw [execAll, hstart, andThen_next, execAll_sbyte bs rfl]
  rfl

/-! Each lane is a sum over its own positions (R117, R118). -/

/-- Byte `i` of a payload masked with the table entries of its position, the indices started at `t0` and `t1`
(R106, R118). -/
def maskedByte (p : Params) (t0 t1 : Nat) (bs : List Byte) (i : Nat) : Byte :=
  mix p (idxAt p.idxMode t0 i) (idxAt p.idxMode t1 i) (bs.getD i 0)

/-- The positions of a payload of `n` bytes that go to lane `l` (R117). -/
def lanePositions (n : Nat) (l : BitVec 2) : Finset Nat := (Finset.range n).filter (fun i => i % 4 = l.toNat)

theorem mem_lanePositions {n i : Nat} {l : BitVec 2} : i ∈ lanePositions n l ↔ i < n ∧ i % 4 = l.toNat := by
  simp [lanePositions]

/-- The sum of the masked bytes of lane `l`. -/
def laneSum (p : Params) (t0 t1 : Nat) (bs : List Byte) (l : BitVec 2) : Nat :=
  ∑ i ∈ lanePositions bs.length l, (maskedByte p t0 t1 bs i).toNat

/-- A sequence's bytes at a lane's own positions are all that the lane's sum reads (R117). -/
theorem laneSum_congr (p : Params) (t0 t1 : Nat) {bs bs' : List Byte} {l : BitVec 2} (hlen : bs.length = bs'.length)
    (h : ∀ i, i < bs.length → i % 4 = l.toNat → bs.getD i 0 = bs'.getD i 0) :
    laneSum p t0 t1 bs l = laneSum p t0 t1 bs' l := by
  rw [laneSum, laneSum, ← hlen]
  refine Finset.sum_congr rfl fun i hi => ?_
  obtain ⟨hlt, hmod⟩ := mem_lanePositions.1 hi
  rw [maskedByte, maskedByte, h i hlt hmod]

/-- One more byte adds its masked value to the lane of its position, and to no other. -/
theorem laneSum_concat (p : Params) (t0 t1 : Nat) (bs : List Byte) (b : Byte) (l : BitVec 2) :
    laneSum p t0 t1 (bs ++ [b]) l = laneSum p t0 t1 bs l +
      if bs.length % 4 = l.toNat
      then (mix p (idxAt p.idxMode t0 bs.length) (idxAt p.idxMode t1 bs.length) b).toNat else 0 := by
  have hold : ∑ i ∈ lanePositions bs.length l, (maskedByte p t0 t1 (bs ++ [b]) i).toNat = laneSum p t0 t1 bs l := by
    refine Finset.sum_congr rfl fun i hi => ?_
    rw [maskedByte, List.getD_append _ _ _ _ (mem_lanePositions.1 hi).1, maskedByte]
  have hnew : maskedByte p t0 t1 (bs ++ [b]) bs.length =
      mix p (idxAt p.idxMode t0 bs.length) (idxAt p.idxMode t1 bs.length) b := by
    simp [maskedByte]
  have hmem : bs.length ∉ lanePositions bs.length l := fun h => absurd (mem_lanePositions.1 h).1 (Nat.lt_irrefl _)
  rw [laneSum, List.length_append, List.length_singleton, lanePositions, Finset.range_add_one, Finset.filter_insert,
    ← lanePositions]
  split
  · rw [Finset.sum_insert hmem, hold, hnew, Nat.add_comm]
  · exact hold

/-- The last byte of a sequence goes to the lane of its position, masked with the indices of its position (R106,
R118). -/
theorem ChecksumState.feedAll_concat_lane (p : Params) (c : ChecksumState) (bs : List Byte) (b : Byte) (l : BitVec 2) :
    (c.feedAll p (bs ++ [b])).acc.get l =
      if l = c.spos + BitVec.ofNat 2 bs.length
      then (c.feedAll p bs).acc.get l +
        mix p (idxAt p.idxMode c.t0i bs.length) (idxAt p.idxMode c.t1i bs.length) b
      else (c.feedAll p bs).acc.get l := by
  rw [feedAll_append, feedAll_cons, feedAll_nil, feed_acc, Lanes.get_addTo, feedAll_spos, feedAll_t0i, feedAll_t1i,
    ← Function.iterate_succ_apply' (idxInc p.idxMode), ← Function.iterate_succ_apply' (idxInc p.idxMode),
    idxInc_iterate, idxInc_iterate]

/-- Lane `l` after the loop of R106 from an initialised state, by induction on the last byte fed. -/
theorem ChecksumState.start_feedAll_lane (p : Params) (t0 t1 : Nat) (bs : List Byte) (l : BitVec 2) :
    ((start t0 t1).feedAll p bs).acc.get l = BitVec.ofNat 8 (laneSum p t0 t1 bs l) := by
  induction bs using List.reverseRecOn with
  | nil => exact Lanes.get_zero l
  | append_singleton bs b ih =>
    have hlane : l = 0 + BitVec.ofNat 2 bs.length ↔ bs.length % 4 = l.toNat := by
      rw [← BitVec.toNat_inj]
      simp [eq_comm]
    rw [feedAll_concat_lane, ih, laneSum_concat]
    simp only [start_spos, start_t0i, start_t1i, hlane]
    split
    · rw [BitVec.ofNat_add, BitVec.ofNat_toNat, BitVec.setWidth_eq]
    · rw [Nat.add_zero]

/-- Settles O31: SUM32 leaves the loop's state, whose lanes are the sums. -/
theorem sum32LanesAreSumsOfMaskedBytes : Obligations.Sum32LanesAreSumsOfMaskedBytes :=
  fun _ bs m _ hlen hr hbs hm => ⟨_, exec_sum32_of_holds hlen hr hbs hm,
    ChecksumState.start_feedAll_lane Config.params (bs.length % 256) m.toNat bs⟩

/-- A byte that a region holds is its byte of the sequence. -/
theorem Memory.holds.read_eq_getD {m : Memory} {a i : Nat} (h : m.holds a bs) (hi : i < bs.length) :
    m.read (a + i) = some (bs.getD i 0) := by
  rw [h i hi, List.getD_eq_getElem?_getD, List.getElem?_eq_getElem hi, Option.getD_some]

/-- Settles O34: both lanes are sums from the same indices over the same positions, where the bytes agree. -/
theorem laneDependsOnItsOwnPositions : Obligations.LaneDependsOnItsOwnPositions := by
  intro s s' t t' l hlen h h' hcheck hcheck' hmid hbytes
  rw [exec_of_none hcheck] at h
  rw [exec_of_none hcheck'] at h'
  obtain ⟨c, bs, hc, hbs, rfl⟩ := effect_sum32_next h
  obtain ⟨c', bs', hc', hbs', rfl⟩ := effect_sum32_next h'
  obtain ⟨m, hm, rfl⟩ := State.initialChecksum_eq_ok.1 hc
  obtain ⟨m', hm', rfl⟩ := State.initialChecksum_eq_ok.1 hc'
  obtain ⟨hn, hholds⟩ := State.sourceBytes_eq_ok.1 hbs
  obtain ⟨hn', hholds'⟩ := State.sourceBytes_eq_ok.1 hbs'
  rw [← hlen] at hm' hn' ⊢
  obtain rfl : m = m' := Option.some.inj (hm.symm.trans (hmid.trans hm'))
  simp only [State.withChecksum_checksum, ChecksumState.start_feedAll_lane]
  refine congrArg _ (laneSum_congr _ _ _ (hn.trans hn'.symm) fun i hi hl => ?_)
  have hread := hbytes i (hn ▸ hi) hl
  rw [hholds.read_eq_getD hi, hholds'.read_eq_getD (hn'.trans hn.symm ▸ hi)] at hread
  exact Option.some.inj hread

/-! The whole commands and the engine state before them (R119, R179). -/

/-- The reads of SUM32 see BUF, SRC and LEN only (R119). -/
theorem effect_sum32_forgets {s' : State} (hbuf : s.buf = s'.buf) (hsrc : s.src = s'.src) (hlen : s.len = s'.len)
    (h : effect .sum32 s = .next t) : effect .sum32 s' = .next (s'.withChecksum t.checksum) := by
  obtain ⟨c, bs, hc, hbs, rfl⟩ := effect_sum32_next h
  have hc' : s'.initialChecksum = .ok c := by
    rwa [State.initialChecksum_eq_ok, ← hbuf, ← hsrc, ← hlen, ← State.initialChecksum_eq_ok]
  have hbs' : s'.sourceBytes = .ok bs := by
    rwa [State.sourceBytes_eq_ok, ← hbuf, ← hsrc, ← hlen, ← State.sourceBytes_eq_ok]
  exact effect_sum32_of_ok hc' hbs'

/-- The region loop from a given keystream sees BUF, SRC, DST and LEN only (R179). -/
theorem runKeystream_forgets {s' : State} {k : CipherState} (hbuf : s.buf = s'.buf) (hsrc : s.src = s'.src)
    (hdst : s.dst = s'.dst) (hlen : s.len = s'.len) (h : runKeystream p k s = .next t) :
    runKeystream p k s' = .next ((s'.withCipher t.cipher).withBuf t.buf) := by
  obtain ⟨k', m, hloop, rfl⟩ := runKeystream_next h
  rw [hbuf, hsrc, hdst, hlen] at hloop
  rw [runKeystream, State.regionLen, State.srcAddr, State.dstAddr, hloop]
  rfl

/-- Settles O52: the checks are the same, and so is what the effects compute from BUF, SRC, DST and LEN. -/
theorem wholeCommandsForgetTheEngineState : Obligations.WholeCommandsForgetTheEngineState := by
  refine fun s s' t k hbuf hsrc hdst hlen => ⟨fun hcheck h => ?_, fun hcheck h => ?_⟩
  · have hcheck' : commandError s' .sum32 = none := by
      rw [← hcheck, commandError, commandError, hsrc, hlen]
    rw [exec_of_none hcheck] at h
    exact ⟨_, (exec_of_none hcheck').trans (effect_sum32_forgets hbuf hsrc hlen h), rfl⟩
  · have hcheck' : commandError s' (.capply k) = none := by
      rw [← hcheck, commandError, commandError, hsrc, hdst, hlen]
    rw [exec_of_none hcheck] at h
    exact ⟨_, (exec_of_none hcheck').trans (runKeystream_forgets hbuf hsrc hdst hlen h), rfl, rfl⟩

end Sys2Proof.Machine

/-! The family of 41_cipher.md: the keystream as arithmetic, the outcomes of the four cipher commands, a run that goes
on across commands, and CXOR and CAPPLY as `apply` of their source. -/

namespace Sys2Proof.Machine

variable {p : Params} {s : State} {c : CipherState} {b k : Byte} {d : List Byte} {j : Nat}

/-! The keystream as arithmetic (R14, R131, R145). -/

/-- The modulus does not act on a seed, since a key is below 256 (R131). -/
theorem lcgSeed_toNat_exact (k : Byte) : (lcgSeed k).toNat = 54323 * k.toNat + 1 := by
  rw [lcgSeed_toNat, Nat.mod_eq_of_lt (by omega)]

theorem lcgNext_eq_ofNat (w : Word) : lcgNext w = BitVec.ofNat 32 (54323 * w.toNat + 1) := by
  rw [← BitVec.toNat_inj, lcgNext_toNat, BitVec.toNat_ofNat]

/-- The multiplier is odd, so no two words have the same successor (R14). -/
theorem lcgNext_injective : Function.Injective lcgNext := by
  intro v w h
  rw [← BitVec.toNat_inj, lcgNext_toNat, lcgNext_toNat] at h
  rw [← BitVec.toNat_inj]
  omega

/-- A key taken as a word is some key's seed only if that seed is below 256, and the seed of 0 is the only one that
is (R145). -/
theorem setWidth_eq_lcgSeed {j k : Byte} : k.setWidth 32 = lcgSeed j ↔ j = 0 ∧ k = 1 := by
  have hk := k.isLt
  have hj0 : j = 0 ↔ j.toNat = 0 := by rw [← BitVec.toNat_inj]; rfl
  have hk1 : k = 1 ↔ k.toNat = 1 := by rw [← BitVec.toNat_inj]; rfl
  rw [hj0, hk1, ← BitVec.toNat_inj, lcgSeed_toNat_exact, BitVec.toNat_setWidth_of_le (by decide)]
  omega

/-- Settles O46: by the injectivity of `next`, a seed is a seed advanced exactly if a key is a seed. -/
theorem onlyKeyOneIsAnotherKeyAdvanced : Obligations.OnlyKeyOneIsAnotherKeyAdvanced := by
  refine ⟨fun j k => ?_, fun n => ?_, lcgSeed_toNat_exact, by decide, by decide⟩
  · rw [lcgSeed_eq_lcgNext k, lcgNext_injective.eq_iff, setWidth_eq_lcgSeed]
  · have hseed : lcgSeed 1 = lcgNext (lcgSeed 0) := by decide
    rw [Function.iterate_succ_apply, hseed]

/-- The mask XORed in two steps, table entry and keystream byte (R133). -/
theorem CipherState.xor_mask (p : Params) (c : CipherState) (b : Byte) :
    b ^^^ c.mask p = b ^^^ ktAt p c.kpos.toNat ^^^ c.lcg.extractLsb' 13 8 := (BitVec.xor_assoc ..).symm

/-- A seeded keystream advanced by one byte, as arithmetic (R24, R25). -/
theorem CipherState.advance_eq (h : c.seeded = true) : c.advance =
    { lcg := BitVec.ofNat 32 (54323 * c.lcg.toNat + 1), kpos := BitVec.ofNat 3 (c.kpos.toNat + 1),
      seeded := true } := by
  have hkpos : c.kpos + 1 = BitVec.ofNat 3 (c.kpos.toNat + 1) := by simp [BitVec.ofNat_add]
  rw [CipherState.advance, h, lcgNext_eq_ofNat, hkpos]

/-! The checks (R131, R134, R137, R140). -/

theorem commandError_cxor_noseed (h : s.cipher.seeded = false) : commandError s .cxor = some .noseed := by
  rw [commandError, if_pos h]

theorem commandError_cxor_range (h : s.cipher.seeded = true)
    (hr : bufBytes < s.src.toNat + s.len.toNat ∨ bufBytes < s.dst.toNat + s.len.toNat) :
    commandError s .cxor = some .range := by
  rw [commandError, if_neg (by simp [h]), if_pos hr]

theorem commandError_cxor_none (h : s.cipher.seeded = true) (hsrc : s.src.toNat + s.len.toNat ≤ bufBytes)
    (hdst : s.dst.toNat + s.len.toNat ≤ bufBytes) : commandError s .cxor = none := by
  rw [commandError, if_neg (by simp [h]), if_neg (by omega)]

theorem commandError_cbyte_noseed (h : s.cipher.seeded = false) : commandError s (.cbyte b) = some .noseed := by
  rw [commandError, if_pos h]

theorem commandError_cbyte_none (h : s.cipher.seeded = true) : commandError s (.cbyte b) = none := by
  rw [commandError, if_neg (by simp [h])]

theorem commandError_capply_range
    (hr : bufBytes < s.src.toNat + s.len.toNat ∨ bufBytes < s.dst.toNat + s.len.toNat) :
    commandError s (.capply k) = some .range := by
  rw [commandError, if_pos hr]

theorem commandError_capply_none (hsrc : s.src.toNat + s.len.toNat ≤ bufBytes)
    (hdst : s.dst.toNat + s.len.toNat ≤ bufBytes) : commandError s (.capply k) = none := by
  rw [commandError, if_neg (by omega)]

theorem exec_cxor_eq_runKeystream (h : s.cipher.seeded = true) (hsrc : s.src.toNat + s.len.toNat ≤ bufBytes)
    (hdst : s.dst.toNat + s.len.toNat ≤ bufBytes) : exec .cxor s = runKeystream Config.params s.cipher s := by
  rw [exec_of_none (commandError_cxor_none h hsrc hdst), effect]

theorem exec_capply_eq_runKeystream (hsrc : s.src.toNat + s.len.toNat ≤ bufBytes)
    (hdst : s.dst.toNat + s.len.toNat ≤ bufBytes) :
    exec (.capply k) s = runKeystream Config.params (.start k) s := by
  rw [exec_of_none (commandError_capply_none hsrc hdst), effect]

/-! CSEED and CBYTE (R130, R136). -/

theorem exec_cseed (k : Byte) (s : State) : exec (.cseed k) s = .next (s.withCipher (.atPosition k 0)) := rfl

theorem exec_cbyte (h : s.cipher.seeded = true) (b : Byte) : exec (.cbyte b) s =
    .next ((s.withOut (b ^^^ s.cipher.mask Config.params)).withCipher s.cipher.advance) := by
  rw [exec_of_none (commandError_cbyte_none h), effect]

/-- Settles O37: the word is the encoding, and CSEED has no check. -/
theorem cseedSeedsTheKeystream : Obligations.CseedSeedsTheKeystream :=
  fun k _ => ⟨decode_eq_ok.2 (wordB_eq_or 0x6 k), lcgSeed k, lcgSeed_toNat_exact k, rfl⟩

/-- Settles O38: the check, then the mask byte and the keystream's advance as arithmetic. -/
theorem cbyteEnciphersIntoOut : Obligations.CbyteEnciphersIntoOut := by
  refine fun b s => ⟨decode_eq_ok.2 (wordB_eq_or 0x8 b), fun h => exec_of_error (commandError_cbyte_noseed h),
    fun h => ?_⟩
  rw [exec_cbyte h, CipherState.xor_mask, CipherState.advance_eq h]
  rfl

/-! The region loop on SRC, DST and LEN (R133, R134, R140). -/

theorem runKeystream_of_ok {c' : CipherState} {m : Memory}
    (h : cipherRegion p s.len.toNat s.src.toNat s.dst.toNat c s.buf = .ok (c', m)) :
    runKeystream p c s = .next ((s.withCipher c').withBuf m) := by
  rw [runKeystream, State.regionLen, State.srcAddr, State.dstAddr, h]

/-- The loop stops at the first source byte that is unwritten when it is read (R62). -/
theorem runKeystream_faults {i : Nat} (hi : i < s.len.toNat) (hw : ∀ j, j < i → s.keystreamByteWritten j)
    (hn : ¬ s.keystreamByteWritten i) : runKeystream p c s = .fault (.uninitRead (s.src.toNat + i)) := by
  rw [runKeystream, State.regionLen, State.srcAddr, State.dstAddr, cipherRegion_faults hi hw hn]

/-- A sequence of cipher states, each the one before it advanced, is seeded throughout if it begins seeded (R26). -/
theorem CipherState.seeded_of_advances {n : Nat} {cs : Nat → CipherState} (h0 : (cs 0).seeded = true)
    (hs : ∀ i, i < n → cs (i + 1) = (cs i).advance) {i : Nat} (hi : i ≤ n) : (cs i).seeded = true := by
  induction i with
  | zero => exact h0
  | succ i ih => rw [hs i hi, CipherState.advance_seeded, ih (by omega)]

/-- Settles O39: the two checks, then the loop as the sequence of cipher states and memories it goes through. -/
theorem cxorRunsByteByByte : Obligations.CxorRunsByteByByte := by
  refine ⟨decode_eq_ok.2 rfl, fun s => ⟨fun h => exec_of_error (commandError_cxor_noseed h),
    fun h hr => exec_of_error (commandError_cxor_range h hr), fun h hsrc hdst => ?_⟩⟩
  rw [exec_cxor_eq_runKeystream h hsrc hdst]
  refine ⟨fun hw => ?_, fun i hi hw hn => runKeystream_faults hi hw hn⟩
  obtain ⟨cs, ms, hc0, hm0, hstep, hloop⟩ := cipherRegion_trace (p := Config.params) (c := s.cipher) hw
  have hseeded : ∀ i, i < s.len.toNat → (cs i).seeded = true := fun i hi =>
    CipherState.seeded_of_advances (hc0 ▸ h) (fun i hi => (hstep i hi).1) hi.le
  refine ⟨cs, ms, hc0, hm0, fun i hi => ?_, runKeystream_of_ok hloop⟩
  obtain ⟨hadvance, b, hread, hwrite, hother⟩ := hstep i hi
  exact ⟨hadvance.trans (CipherState.advance_eq (hseeded i hi)), b, hread,
    hwrite.trans (congrArg some (CipherState.xor_mask ..)), hother⟩

/-- Settles O40: the check, then the loop from a fresh seed, which stays seeded. -/
theorem capplyChecksBeforeSeeding : Obligations.CapplyChecksBeforeSeeding := by
  refine fun k s => ⟨fun hr => exec_of_error (commandError_capply_range hr), fun hsrc hdst => ?_⟩
  rw [exec_capply_eq_runKeystream hsrc hdst]
  refine ⟨fun hw => ?_, fun i hi hw hn => runKeystream_faults hi hw hn⟩
  obtain ⟨c, m, hloop⟩ := cipherRegion_completes (p := Config.params) (c := .start k) hw
  exact ⟨c, m, runKeystream_of_ok hloop, cipherRegion_seeded hloop⟩

/-! CXOR along a run, and CAPPLY (R139, R144). -/

/-- The regions of a sound state by their addresses (R142, R243). -/
theorem State.regionsSound.addresses (h : s.regionsSound) : s.src.toNat = s.dst.toNat ∨
    s.src.toNat + s.len.toNat ≤ s.dst.toNat ∨ s.dst.toNat + s.len.toNat ≤ s.src.toNat :=
  h.imp_left (congrArg BitVec.toNat)

/-- CXOR after `j` bytes of a run XORs source byte `i` with the mask of position `j + i`, and leaves the run after its
last byte (R144). -/
theorem exec_cxor_atPosition (hc : s.cipher = .atPosition k j) (hlen : d.length = s.len.toNat)
    (hsrc : s.src.toNat + s.len.toNat ≤ bufBytes) (hdst : s.dst.toNat + s.len.toNat ≤ bufBytes)
    (hsound : s.regionsSound) (hd : s.buf.holds s.src.toNat d) :
    ∃ m, exec .cxor s = .next ((s.withCipher (.atPosition k (j + d.length))).withBuf m) ∧
      (∀ i b, d[i]? = some b → m.read (s.dst.toNat + i) = some (b ^^^ maskAt Config.params k (j + i))) ∧
      ∀ a, a < s.dst.toNat ∨ s.dst.toNat + s.len.toNat ≤ a → m.read a = s.buf.read a := by
  obtain ⟨m, hloop, hbytes, hother⟩ :=
    cipherRegion_sound (p := Config.params) (c := .atPosition k j) hlen hd hsound.addresses
  simp only [CipherState.advance_iterate_atPosition, CipherState.mask_atPosition, ← hlen] at hloop hbytes
  have hseeded : s.cipher.seeded = true := by rw [hc]; rfl
  refine ⟨m, ?_, hbytes, hother⟩
  rw [exec_cxor_eq_runKeystream hseeded hsrc hdst, hc]
  exact runKeystream_of_ok (hlen ▸ hloop)

/-- Settles O42: CBYTE takes the mask of its position, and CXOR the masks from its position on. -/
theorem runContinuesAcrossCommands : Obligations.RunContinuesAcrossCommands := by
  refine fun k j s => ⟨exec_cseed k s, fun _ _ => (BitVec.xor_left_inj _).1, fun hc => ⟨fun b => ?_,
    fun d hlen hsrc hdst hsound hd => exec_cxor_atPosition hc hlen hsrc hdst hsound hd⟩⟩
  rw [exec_cbyte (by rw [hc]; rfl), hc, CipherState.mask_atPosition, CipherState.advance_atPosition]
  rfl

/-- Past the check CAPPLY answers what CSEED and then CXOR answer, since CSEED seeds and keeps the region (R139). -/
theorem exec_capply_eq_cseed_cxor (hsrc : s.src.toNat + s.len.toNat ≤ bufBytes)
    (hdst : s.dst.toNat + s.len.toNat ≤ bufBytes) :
    exec (.capply k) s = andThen (exec (.cseed k) s) (exec .cxor) := by
  rw [exec_capply_eq_runKeystream hsrc hdst, exec_cseed, andThen_next,
    exec_cxor_eq_runKeystream (s := s.withCipher (.atPosition k 0)) rfl hsrc hdst]
  rfl

/-- Settles O41: the check, the composition, and `apply` of the source. -/
theorem capplyComputesApply : Obligations.CapplyComputesApply := by
  refine fun k s => ⟨decode_eq_ok.2 (wordB_eq_or 0x9 k), fun hr => exec_of_error (commandError_capply_range hr),
    fun hsrc hdst => ⟨exec_capply_eq_cseed_cxor hsrc hdst, fun d hlen hsound hd => ?_⟩⟩
  rw [← hlen] at hsrc hdst ⊢
  exact exec_capply_applies k hlen.symm hsrc hdst hsound hd

/-- Settles O44: the second CAPPLY applies the key to what the first left, and `apply` undoes itself. -/
theorem capplyTwiceRestores : Obligations.CapplyTwiceRestores := by
  intro k s c d hlen hsrc hdst hc hsound hsound' hd
  rw [← hlen] at hsrc hdst hc
  obtain ⟨m, hexec, hm, -⟩ := exec_capply_applies k hlen.symm hsrc hdst hsound hd
  obtain ⟨m', hexec', hm', -⟩ := exec_capply_applies (d := applyKey Config.params d k)
    (s := ((((s.withCipher (.atPosition k d.length)).withBuf m).withSrc s.dst).withDst c)) k
    (by rw [applyKey_length]; exact hlen.symm) (by rwa [applyKey_length]) (by rwa [applyKey_length]) hsound' hm
  rw [applyKey_applyKey] at hm'
  exact ⟨_, _, hexec, hexec', hm'⟩

/-! A run split between two commands (R143). -/

/-- `apply` over a concatenation goes on over the second part from where the first part left the keystream (R143). -/
theorem applyFrom_append (p : Params) (d e : List Byte) (x : Word) (i : Nat) : applyFrom p x i (d ++ e) =
    applyFrom p x i d ++ applyFrom p (lcgNext^[d.length] x) (i + d.length) e := by
  induction d generalizing x i with
  | nil => rfl
  | cons b d ih =>
    rw [List.cons_append, applyFrom, applyFrom, ih, List.cons_append, List.length_cons, Function.iterate_succ_apply,
      Nat.add_right_comm, Nat.add_assoc]

/-- A memory holds the loop of `apply` from position `j` over a sequence if each byte of the sequence stands there XORed
with the mask of its position (R144). -/
theorem Memory.holds_applyFrom {m : Memory} {a : Nat}
    (h : ∀ i b, d[i]? = some b → m.read (a + i) = some (b ^^^ maskAt p k (j + i))) :
    m.holds a (applyFrom p (lcgNext^[j] (lcgSeed k)) j d) := by
  intro i hi
  rw [applyFrom_length] at hi
  rw [applyFrom_getElem?, h i _ (List.getElem?_eq_getElem hi), List.getElem?_eq_getElem hi, Option.map_some]

/-- Settles O43: each CXOR leaves its own part of the one `apply`, from its own position of the run. -/
theorem twoCxorsEqualOneApply : Obligations.TwoCxorsEqualOneApply := by
  intro k s1 t1 s2 d1 d2 hseed hlen1 hsrc1 hdst1 hsound1 hd1 hlen2 hsrc2 hdst2 hsound2
  cases hseed
  have hsplit : applyKey Config.params (d1 ++ d2) k = applyKey Config.params d1 k ++
      applyFrom Config.params (lcgNext^[d1.length] (lcgSeed k)) d1.length d2 := by
    rw [applyKey, applyFrom_append, Nat.zero_add, applyKey]
  rw [hsplit, List.take_left' (applyKey_length ..), List.drop_left' (applyKey_length ..)]
  obtain ⟨m1, hexec1, hbytes1, -⟩ :=
    exec_cxor_atPosition (s := s1.withCipher (.atPosition k 0)) rfl hlen1 hsrc1 hdst1 hsound1 hd1
  rw [Nat.zero_add] at hexec1
  refine ⟨_, hexec1, Memory.holds_applyFrom hbytes1, fun hcipher _ hd2 => ?_⟩
  obtain ⟨m2, hexec2, hbytes2, -⟩ := exec_cxor_atPosition hcipher hlen2 hsrc2 hdst2 hsound2 hd2
  exact ⟨_, hexec2, Memory.holds_applyFrom hbytes2, rfl⟩

end Sys2Proof.Machine

/-! The family of 42_control.md: NOP and CLR, the two commands without a check, by their words and their effects. -/

namespace Sys2Proof.Machine

/-- NOP fails no check, and its effect is none (R160). -/
theorem exec_nop (s : State) : exec .nop s = .next s := exec_of_none rfl

/-- CLR fails no check; its effect replaces both engine states and OUT by their values at reset (R163). -/
theorem exec_clr (s : State) : exec .clr s =
    .next (((s.withCipher CipherState.cleared).withChecksum ChecksumState.cleared).withOut 0) := exec_of_none rfl

/-- Settles O47: the all-zero word encodes NOP, whose effect is none. -/
theorem nopChangesNothing : Obligations.NopChangesNothing := ⟨decode_eq_ok.2 rfl, exec_nop⟩

/-- Settles O48: the word encodes CLR, and the cleared engine states have every field 0. -/
theorem clrClearsCipherChecksumAndOut : Obligations.ClrClearsCipherChecksumAndOut := ⟨decode_eq_ok.2 rfl, exec_clr⟩

end Sys2Proof.Machine

/-! The family of 43_binary8_framing.md: the wire layout, what the lines of the host programs leave, the encode and the
decode procedure, and their round trip. -/

namespace Sys2Proof.Machine

variable {s : State} {k : Byte} {h : Header} {d body payload : List Byte} {a b base scratch : Nat}

/-! The wire layout (R170 to R172). -/

/-- The bytes of a 16-bit number joined again (R170). -/
theorem be16_joined (v : BitVec 16) : v.extractLsb' 8 8 ++ v.extractLsb' 0 8 = v :=
  (BitVec.extractLsb'_append_extractLsb'_eq_extractLsb' rfl).trans BitVec.extractLsb'_eq_self

/-- The bytes of a 32-bit number joined again (R170). -/
theorem be32_joined (v : Word) :
    v.extractLsb' 24 8 ++ v.extractLsb' 16 8 ++ v.extractLsb' 8 8 ++ v.extractLsb' 0 8 = v := by
  apply BitVec.eq_of_toNat_eq
  simp only [toNat_append_eq_add, extract_toNat]
  omega

theorem be16_length (v : BitVec 16) : (be16 v).length = 2 := rfl

/-- A number loaded as its two bytes (R176). -/
theorem be16_getD_append (v : BitVec 16) : (be16 v).getD 0 0 ++ (be16 v).getD 1 0 = v := be16_joined v

theorem Header.plain_length (h : Header) : h.plain.length = 11 := rfl

/-- The plain header reads back as the header (R171). -/
theorem Header.ofBytes_plain (h : Header) : Header.ofBytes h.plain = h := by
  show Header.mk h.serverType _ _ _ = h
  congr 1
  exacts [be16_joined _, be16_joined _, be32_joined _]

theorem Header.plain_append_length (h : Header) (payload : List Byte) :
    (h.plain ++ payload).length = 11 + payload.length := List.length_append

/-- Header and payload are never empty together (R170). -/
theorem Header.plain_append_length_pos (h : Header) (payload : List Byte) : 0 < (h.plain ++ payload).length := by
  rw [h.plain_append_length]
  omega

/-- `apply` over a concatenation goes on over the second part where the first part left the keystream (R143, R172). -/
theorem applyKey_append (p : Params) (d e : List Byte) (k : Byte) : applyKey p (d ++ e) k =
    applyKey p d k ++ applyFrom p (lcgNext^[d.length] (lcgSeed k)) d.length e := by
  rw [applyKey, applyFrom_append, Nat.zero_add, applyKey]

/-- A wire unit is 12 bytes and its payload (R170). -/
theorem wireBytes_length (p : Params) (k : Byte) (h : Header) (payload : List Byte) :
    (wireBytes p k h payload).length = 12 + payload.length := by
  rw [wireBytes, List.length_cons, applyKey_length, h.plain_append_length]
  omega

/-- Settles O55: past the key byte the wire is one `apply`, whose byte `j` has the mask of position `j`. -/
theorem wireBytesAreOneKeystreamRun : Obligations.WireBytesAreOneKeystreamRun := by
  refine fun p k h payload j x => ⟨rfl, h.plain_length, h.ofBytes_plain, fun hx => ?_⟩
  rw [wireBytes, Nat.add_comm, List.getElem?_cons_succ, applyKey_getElem?, hx, Option.map_some, maskAt,
    BitVec.xor_assoc]

/-- Wire bytes stand at an address if the key byte does, with the enciphered header and payload behind it (R170). -/
theorem Memory.holds_wireBytes {p : Params} {m : Memory} : m.holds a (wireBytes p k h payload) ↔
    m.read a = some k ∧ m.holds (a + 1) (applyKey p (h.plain ++ payload) k) := Memory.holds_cons

/-- Where a plain header stands, its `body_size` stands from byte 5 on (R171). -/
theorem Memory.holds.bodySize {m : Memory} (hm : m.holds a h.plain) : m.holds (a + 5) (be16 h.bodySize) := by
  obtain ⟨hfront, -⟩ := Memory.holds_append.1 hm
  exact (Memory.holds_append.1 hfront).2

/-! What the lines of the host programs leave (R88). -/

/-- Accesses behind others that complete answer as from the state those leave (R63). -/
theorem issue_append {es fs : List Event} {t : State} (hes : accessAll es s = .next t) :
    issue (es ++ fs) s = issue fs t := by
  rw [issue, accessAll_append, hes, andThen_next, ← issue]

/-- `apply` leaves `apply` of the source bytes at the destination, and no other byte changed (R88, R139). -/
theorem issue_applyLines (k : Byte) (hpos : 0 < d.length) (ha : a + d.length ≤ bufBytes) (hb : b + d.length ≤ bufBytes)
    (hs : a = b ∨ a + d.length ≤ b ∨ b + d.length ≤ a) (hd : s.buf.holds a d) :
    ∃ w t, issue (applyLines a b d.length k) s = .next (w, t) ∧ t.buf.holds b (applyKey Config.params d k) ∧
      ∀ x, x < b ∨ b + d.length ≤ x → t.buf.read x = s.buf.read x := by
  obtain ⟨t, ht, hbytes⟩ := accessAll_applyLines k ha hb hs hd
  refine ⟨_, t, issue_eq ht, hbytes, ?_⟩
  rw [accessAll_applyLines_eq] at ht
  obtain ⟨-, -, -, -, -, -, -, -, -, hother⟩ := commandFrame _ _ _ ht
  obtain ⟨hlen, hdst⟩ := toNat_ofNat_of_region hb
  rwa [State.withRegion_dst, State.withRegion_len, State.withRegion_buf, hlen, hdst hpos.ne'] at hother

/-- `checksum` of a non-empty region answers `checksum32` of it and leaves BUF (R88, R112). -/
theorem issue_checksumLines (hpos : 0 < d.length) (ha : a + d.length ≤ bufBytes) (hd : s.buf.holds a d) :
    ∃ c t, issue (checksumLines a d.length) s = .next (c, t) ∧ checksum32 Config.params d = some c ∧
      t.buf = s.buf := by
  obtain ⟨hlen, hsrc⟩ := toNat_ofNat_of_region ha
  replace hsrc := hsrc hpos.ne'
  obtain ⟨c, hexec, hsum⟩ :=
    exec_sum32_computes (s := (s.withSrc (BitVec.ofNat 17 a)).withLen (BitVec.ofNat 18 d.length))
      (List.length_pos_iff.1 hpos) hlen (by simpa [hsrc] using ha) (by simpa [hsrc] using hd)
  exact ⟨_, _, issue_eq (accessAll_checksumLines_eq hexec), hsum, rfl⟩

/-- `checksum` of an empty region records EMPTY and leaves BUF (R101, R175). -/
theorem issue_checksumLines_empty (a : Nat) (s : State) :
    ∃ c t, issue (checksumLines a 0) s = .next (c, t) ∧ t.err = (s.recorded .empty).err ∧ t.buf = s.buf :=
  ⟨_, _, issue_eq (accessAll_checksumLines_eq (exec_sum32_empty rfl)), rfl, rfl⟩

/-! The encode procedure (R174, R175). -/

/-- Steps 3 and 4 of R174: with the payload in place, the stores leave key byte, plain header and payload in a row. -/
theorem accessAll_storeHeader (k : Byte) (h : Header) (hroom : base + 12 + payload.length ≤ bufBytes)
    (hp : s.buf.holds (base + 12) payload) :
    ∃ m, accessAll (storeBytes (base + 1) h.plain ++ storeBytes base [k]) s = .next (s.withBuf m) ∧
      m.read base = some k ∧ m.holds (base + 1) (h.plain ++ payload) := by
  have hlen := h.plain_length
  obtain ⟨m, hstore, hplain, hother⟩ := accessAll_storeBytes (bs := h.plain) (a := base + 1) (by omega) s
  obtain ⟨m', hstore', hkey, hother'⟩ :=
    accessAll_storeBytes (bs := [k]) (a := base) (by rw [List.length_singleton]; omega) (s.withBuf m)
  rw [List.length_singleton] at hother'
  refine ⟨m', ?_, (Memory.holds_cons.1 hkey).1, Memory.holds_append.2 ⟨?_, ?_⟩⟩
  · rw [accessAll_append, hstore, andThen_next, hstore', State.withBuf_withBuf]
  · exact Memory.holds_congr hplain fun x _ _ => hother' x (by omega)
  · exact Memory.holds_congr hp fun x _ _ => (hother' x (by omega)).trans (hother x (by omega))

/-- Settles O56: payload and header in a row, then one `apply` over both, which leaves the key byte. -/
theorem writePartLeavesTheWireBytes : Obligations.WritePartLeavesTheWireBytes := by
  intro k t n payload base s hpos hmax hroom
  replace hroom : base + 12 + payload.length ≤ bufBytes := hroom
  have hne : payload.isEmpty = false := by rwa [List.isEmpty_eq_false_iff, ← List.length_pos_iff]
  obtain ⟨m, hstore, hpayload, -⟩ := accessAll_storeBytes hroom s
  obtain ⟨c, s1, hissue, hc, hbuf⟩ := issue_checksumLines (s := s.withBuf m) hpos hroom hpayload
  have hlen := (encodeHeader t n payload c).plain_append_length payload
  obtain ⟨m', hstore', hkey, hplain⟩ := accessAll_storeHeader (s := s1) k (encodeHeader t n payload c) hroom
    (by rwa [hbuf])
  obtain ⟨w, u, happly, hwire, hother⟩ := issue_applyLines (s := s1.withBuf m') k
    (Header.plain_append_length_pos _ _) (by omega) (by omega) (.inl rfl) hplain
  refine ⟨c, u, hc, ?_, Memory.holds_wireBytes.2 ⟨(hother base (by omega)).trans hkey, hwire⟩⟩
  rw [hlen] at happly
  rw [writePart, if_neg (by omega), if_neg (by omega), issue_append hstore, hissue, hostBind_next, hne,
    if_neg Bool.false_ne_true, issue_append hstore', happly, hostBind_next]

/-- Settles O57: an empty payload stores nothing before the checksum, which records EMPTY; an oversized one is refused
first of all. -/
theorem writePartReportsInvariantViolation : Obligations.WritePartReportsInvariantViolation := by
  refine fun k t n payload base s => ⟨?_, fun hmax => by rw [writePart, if_pos hmax]⟩
  rintro rfl hroom
  replace hroom : ¬ bufBytes < base + 12 + ([] : List Byte).length := Nat.not_lt.2 hroom
  obtain ⟨c, u, hissue, herr, hbuf⟩ := issue_checksumLines_empty (base + 12) s
  refine ⟨u, ?_, herr, hbuf⟩
  rw [writePart, if_neg (by simp), if_neg hroom, storeBytes, List.nil_append, List.length_nil, hissue]
  rfl

/-! The decode procedure (R176, R177). -/

theorem badAreas_eq_false {base size scratch : Nat} : badAreas base size scratch = false ↔
    base + size ≤ bufBytes ∧ scratch + 11 ≤ bufBytes ∧ (scratch + 11 ≤ base ∨ base + size ≤ scratch) := by
  simp only [badAreas, Bool.or_eq_false_iff, Bool.and_eq_false_iff, decide_eq_false_iff_not, Nat.not_lt, and_assoc]

/-- Areas that fit leave room for the wire bytes (R176). -/
theorem room_of_badAreas_eq_false {n : Nat} (hareas : badAreas base (12 + n) scratch = false) :
    base + 12 + n ≤ bufBytes := by
  obtain ⟨hroom, -⟩ := badAreas_eq_false.1 hareas
  omega

/-- Steps 2 to 4 of R176 on wire bytes: the header deciphered into the scratch area says how long the body is, and the
wire bytes still stand. -/
theorem readPart_of_wireBytes (hareas : badAreas base (12 + body.length) scratch = false)
    (hwire : s.buf.holds base (wireBytes Config.params k h body)) :
    ∃ t, t.buf.holds base (wireBytes Config.params k h body) ∧
      readPart base (12 + body.length) scratch s =
        if body.length < h.bodySize.toNat then .next (.truncated, t) else readBody k base h.bodySize.toNat t := by
  obtain ⟨hroom, hscratch, hapart⟩ := badAreas_eq_false.1 hareas
  obtain ⟨hkey, hcipher⟩ := Memory.holds_wireBytes.1 hwire
  rw [applyKey_append, Memory.holds_append] at hcipher
  have hlen : (applyKey Config.params h.plain k).length = 11 := applyKey_length ..
  obtain ⟨log, hload⟩ : ∃ log, loadBytes base 1 s = .next ([k], s.withReadLog log) :=
    loadBytes_eq (bs := [k]) (by rw [List.length_singleton]; omega) (Memory.holds_cons.2 ⟨hkey, Memory.holds_nil _ _⟩)
  obtain ⟨w, u, happly, hplain, hother⟩ := issue_applyLines (b := scratch) (s := s.withReadLog log) k (by omega)
    (by omega) (by omega) (by omega) hcipher.1
  rw [applyKey_applyKey] at hplain
  obtain ⟨log', hsize⟩ : ∃ log', loadBytes (scratch + 5) 2 u = .next (be16 h.bodySize, u.withReadLog log') :=
    loadBytes_eq (bs := be16 h.bodySize) (by rw [be16_length]; omega) hplain.bodySize
  rw [hlen] at happly hother
  refine ⟨u.withReadLog log', Memory.holds_congr hwire fun x _ hx => hother x ?_, ?_⟩
  · rw [wireBytes_length] at hx
    omega
  · rw [readPart, if_neg (by omega), hareas, if_neg Bool.false_ne_true, hload, hostBind_next, List.headD_cons, happly,
      hostBind_next, hsize, hostBind_next, be16_getD_append]
    simp only [Nat.add_lt_add_iff_left]

/-- R176 from step 5 on wire bytes whose length field is true: the answer, and header and payload deciphered in place. -/
theorem readBody_of_wireBytes (hroom : base + 12 + payload.length ≤ bufBytes)
    (hwire : s.buf.holds base (wireBytes Config.params k h payload)) :
    ∃ u, readBody k base payload.length s =
        .next (if checksum32 Config.params payload = some h.checksum then .part k h payload
               else .corruptData k h payload, u) ∧
      u.buf.holds (base + 1) (h.plain ++ payload) := by
  have hlen : (applyKey Config.params (h.plain ++ payload) k).length = 11 + payload.length :=
    (applyKey_length ..).trans (h.plain_append_length payload)
  obtain ⟨w, s1, happly, hboth, -⟩ := issue_applyLines (b := base + 1) (s := s) k (by omega) (by omega) (by omega)
    (.inl rfl) (Memory.holds_wireBytes.1 hwire).2
  rw [applyKey_applyKey] at hboth
  rw [hlen] at happly
  obtain ⟨hplain, hpayload⟩ := Memory.holds_append.1 hboth
  obtain ⟨log, hheader⟩ : ∃ log, loadBytes (base + 1) 11 s1 = .next (h.plain, s1.withReadLog log) :=
    loadBytes_eq (by rw [h.plain_length]; omega) hplain
  obtain ⟨log', hbody⟩ := loadBytes_eq (s := s1.withReadLog log) hroom hpayload
  rw [readBody, happly, hostBind_next, hheader, hostBind_next, hbody, hostBind_next, h.ofBytes_plain]
  by_cases hempty : payload.length = 0
  · obtain rfl := List.length_eq_zero_iff.1 hempty
    exact ⟨_, rfl, hboth⟩
  · obtain ⟨c, s2, hissue, hc, hbuf⟩ := issue_checksumLines (s := (s1.withReadLog log).withReadLog log')
      (Nat.pos_of_ne_zero hempty) hroom hpayload
    refine ⟨s2, ?_, hbuf ▸ hboth⟩
    rw [if_neg hempty, hissue, hostBind_next, hc]
    simp only [Option.some_inj]
    split <;> rfl

/-- Settles O58: the body is as long as its header says, so `read_part` goes on to decipher it. -/
theorem readPartDecodesWireBytes : Obligations.ReadPartDecodesWireBytes := by
  intro k h payload base scratch s hsize hareas hwire
  obtain ⟨t, hwire', hread⟩ := readPart_of_wireBytes hareas hwire
  rw [hread, hsize, if_neg (Nat.lt_irrefl _)]
  exact readBody_of_wireBytes (room_of_badAreas_eq_false hareas) hwire'

/-- Settles O59: the length check of step 1, and that of step 4 against the deciphered header. -/
theorem readPartReportsTruncated : Obligations.ReadPartReportsTruncated := by
  refine ⟨fun base size scratch s hsize => by rw [readPart, if_pos hsize],
    fun k h body base scratch s hsize hareas hwire => ?_⟩
  obtain ⟨t, -, hread⟩ := readPart_of_wireBytes hareas hwire
  exact ⟨t, by rw [hread, if_pos hsize]⟩

/-- Settles O60: `write_part` leaves wire bytes, whose header's length and checksum are the payload's, and `read_part`
decodes them. -/
theorem framingRoundTrip : Obligations.FramingRoundTrip := by
  intro k t n payload base scratch s hpos hmax hareas
  obtain ⟨c, u, hc, hwrite, hwire⟩ :=
    writePartLeavesTheWireBytes k t n payload base s hpos hmax (room_of_badAreas_eq_false hareas)
  have hsize : (encodeHeader t n payload c).bodySize.toNat = payload.length := Nat.mod_eq_of_lt (by omega)
  obtain ⟨v, hread, -⟩ := readPartDecodesWireBytes k _ payload base scratch u hsize hareas hwire
  have hsum : checksum32 Config.params payload = some (encodeHeader t n payload c).checksum := hc
  rw [if_pos hsum] at hread
  exact ⟨c, u, v, hc, hwrite, hread⟩

end Sys2Proof.Machine

/-! The family of 60_exceptions.md: the table of errors, what commands do while an error is recorded, and what clears the
record; and the idle block of 70_reset_and_hazards.md. -/

namespace Sys2Proof.Machine

variable {i : Instr} {s t : State}

/-! Commands do not read the error record (R203). -/

theorem commandError_withErr (i : Instr) (s : State) (r : ErrorRecord) :
    commandError (s.withErr r) i = commandError s i := by cases i <;> rfl

/-- The region loop neither reads nor writes the record. -/
theorem runKeystream_withErr (p : Params) (c : CipherState) (s : State) (r : ErrorRecord) :
    runKeystream p c (s.withErr r) = andThen (runKeystream p c s) fun t => .next (t.withErr r) := by
  have hloop : cipherRegion p (s.withErr r).regionLen (s.withErr r).srcAddr (s.withErr r).dstAddr c (s.withErr r).buf =
      cipherRegion p s.regionLen s.srcAddr s.dstAddr c s.buf := rfl
  rw [runKeystream, runKeystream, hloop]
  cases cipherRegion p s.regionLen s.srcAddr s.dstAddr c s.buf <;> rfl

/-- No effect reads or writes the record (R201). -/
theorem effect_withErr (i : Instr) (s : State) (r : ErrorRecord) :
    effect i (s.withErr r) = andThen (effect i s) fun t => .next (t.withErr r) := by
  cases i
  case sinit =>
    simp only [effect, State.withErr_initialChecksum]
    cases s.initialChecksum <;> rfl
  case sfeed =>
    simp only [effect, State.withErr_sourceBytes]
    cases s.sourceBytes <;> rfl
  case sum32 =>
    simp only [effect, State.withErr_initialChecksum, State.withErr_sourceBytes]
    cases s.initialChecksum with
    | error f => rfl
    | ok c => cases s.sourceBytes <;> rfl
  case cxor => exact runKeystream_withErr Config.params s.cipher s r
  case capply k => exact runKeystream_withErr Config.params (CipherState.start k) s r
  all_goals rfl

/-- A command that completes does so with every other record, and leaves the same state but for the record. -/
theorem exec_withErr_next (h : exec i s = .next t) (r : ErrorRecord) :
    ∃ e, exec i (s.withErr r) = .next (t.withErr e) := by
  obtain ⟨e, he, rfl⟩ | ⟨he, heff⟩ := exec_next h
  · exact ⟨_, exec_of_error ((commandError_withErr i s r).trans he)⟩
  · refine ⟨r, ?_⟩
    rw [exec_of_none ((commandError_withErr i s r).trans he), effect_withErr, heff]
    rfl

/-- A command that faults does so with every other record. -/
theorem exec_withErr_fault {f : Fault} (h : exec i s = .fault f) (r : ErrorRecord) :
    exec i (s.withErr r) = .fault f := by
  cases he : commandError s i with
  | some e => rw [exec_of_error he] at h; cases h
  | none =>
    rw [exec_of_none he] at h
    rw [exec_of_none ((commandError_withErr i s r).trans he), effect_withErr, h]
    rfl

/-- Settles O23: the second record replaces the first in the state that the first command starts from. -/
theorem recordDoesNotChangeWhatCommandsDo : Obligations.RecordDoesNotChangeWhatCommandsDo :=
  fun _ _ _ r' => ⟨fun _ h => exec_withErr_next h r', fun _ h => exec_withErr_fault h r'⟩

/-! What a command leaves in the record (R201 to R205). -/

/-- An effect records nothing: put the record it found back, and its next state is the same one. -/
theorem effect_err (h : effect i s = .next t) : t.err = s.err := by
  have hsame := effect_withErr i s s.err
  rw [State.withErr_self, h] at hsame
  injection hsame with hsame
  rw [hsame, State.withErr_err]

/-- Settles O22: the error of each check by `exec_of_error`, and no error from an effect. -/
theorem errorsAreTabledPreciseAndPrioritised : Obligations.ErrorsAreTabledPreciseAndPrioritised := by
  refine fun s => ⟨fun w e h => ?_, fun i e h => exec_of_error h, fun i t h hx => ?_⟩
  · rw [access_cmdWrite, performWord_of_error h]
  · rw [exec_of_none h] at hx
    exact effect_err hx

/-! What clears the record (R37, R203, R208). -/

/-- The first error is kept (R203). -/
theorem State.recorded_err_of_errv (h : s.err.errv = true) (e : ErrCode) : (s.recorded e).err = s.err := if_pos h

theorem exec_keeps_recorded_error (hs : s.err.errv = true) (h : exec i s = .next t) : t.err = s.err := by
  obtain ⟨e, -, rfl⟩ | ⟨-, heff⟩ := exec_next h
  · exact State.recorded_err_of_errv hs e
  · exact effect_err heff

theorem performWord_keeps_recorded_error {w : Word} (hs : s.err.errv = true) (h : performWord w s = .next t) :
    t.err = s.err := by
  cases hd : decode w with
  | ok i => rw [performWord_of_ok hd] at h; exact exec_keeps_recorded_error hs h
  | error e =>
    rw [performWord_of_error hd] at h
    cases h
    exact State.recorded_err_of_errv hs .illegal

/-- Only STATUS bit 3 reaches the record (R37). -/
theorem State.writeReg_err (s : State) (r : Reg) (v : Word) :
    (s.writeReg r v).err = s.err ∨ r = .status ∧ v.getLsbD 3 = true := by
  obtain ⟨-, -, -, -, herr⟩ := s.writeReg_frame r v
  by_cases hr : r = .status
  · subst hr
    cases hv : v.getLsbD 3 with
    | true => exact .inr ⟨rfl, rfl⟩
    | false => left; rw [State.writeReg, State.writeStatus, hv]; rfl
  · exact .inl (herr hr)

/-- Settles O24: of the accesses that complete, a read and a store leave the record, a command keeps its first error,
and a register write reaches it at STATUS only. -/
theorem recordClearedOnlyByStatusWriteOrReset : Obligations.RecordClearedOnlyByStatusWriteOrReset := by
  intro e s t hs h
  cases e with
  | reset => exact .inr (.inl rfl)
  | read width o =>
    obtain ⟨v, rfl⟩ := hostRead_next h
    exact .inl rfl
  | write width o v =>
    obtain ⟨-, -, hw⟩ | ⟨r, -, rfl, rfl, rfl⟩ | ⟨a, -, -, -, rfl⟩ := hostWrite_next h
    · exact .inl (performWord_keeps_recorded_error hs hw)
    · obtain herr | ⟨rfl, hv⟩ := s.writeReg_err r v
      · exact .inl herr
      · exact .inr (.inr ⟨v, rfl, hv⟩)
    · exact .inl rfl

/-! The idle block (R225, R231). -/

theorem step_of_pending_nil (h : s.pending = []) : step s = .next s := by rw [step, takeNext, h]

/-- Settles O9, by induction on the number of steps, each of which is idle. -/
theorem idleStatePersists : Obligations.IdleStatePersists := by
  intro k s h
  induction k with
  | zero => rfl
  | succ k ih => rw [core_run_succ, step_of_pending_nil h]; exact ih

end Sys2Proof.Machine

/-! The family of 95_test_vectors.md: sample words of the decoding table. -/

namespace Sys2Proof

/-- Settles O6: the eleven legal words are the encodings of their commands; the two illegal ones are decoded by
evaluation. -/
theorem sampleWordsDecodeAsTabled : Obligations.SampleWordsDecodeAsTabled := by
  unfold Obligations.SampleWordsDecodeAsTabled
  simp only [decode_eq_ok]
  decide

end Sys2Proof
